-- ==== Sys2Proof/Word.lean ====
section
/-! DEFINITION. The widths the spec gives data: a host register byte, a host register address, a command's one-bit operand. -/

namespace Sys2Proof

/-- A data byte: "the data byte is 8 bits", "host registers are 8 bits wide" (00_scope.md R7). -/
abbrev Byte := BitVec 8

/-- The host port's register address: "the host address is 3 bits" (00_scope.md R7, 10_state.md R16). -/
abbrev RegAddr := BitVec 3

end Sys2Proof
end

