-- ==== Sys2Proof/Config.lean ====
section
/-! DEFINITION. The synthesis-time parameters of 00_scope.md R7 as a configuration record, and the one free value:
the level of the released line. -/

namespace Sys2Proof

/-- The configuration record of 00_scope.md R7, with `BASE` of 20_memory.md R47. Times are in microseconds. -/
structure Config where
  /-- `T_RSTL`: how long the reset pulse drives the line low. -/
  tRstl : Nat
  /-- `T_MSP`: from the release after the reset pulse to the presence sample. -/
  tMsp : Nat
  /-- `T_RSTREM`: from the presence sample to the end of OW_RESET. -/
  tRstrem : Nat
  /-- `T_INIT`: the low time that starts every slot. -/
  tInit : Nat
  /-- `T_SLOT`: from a write slot's start to the end of the write-0 low time. -/
  tSlot : Nat
  /-- `T_RDS`: read slot, from release to the sample. -/
  tRds : Nat
  /-- `T_RPAD`: read slot, from the sample to the end of the slot body. -/
  tRpad : Nat
  /-- `T_REC`: the released time at the end of every slot. -/
  tRec : Nat
  /-- `CYCLES_PER_US`, OPEN. -/
  cyclesPerUs : Nat
  /-- `SYNC_STAGES`: depth of the input synchronizer. -/
  syncStages : Nat
  /-- `CNT_W`: width of the cycle down-counter. -/
  cntW : Nat
  /-- `BASE`, OPEN: the host's address of register 0 (R47). -/
  base : Nat
deriving DecidableEq, Repr

namespace Config

/-- `N(t)`: the clock cycles in `t` microseconds, exactly (R10). -/
def cycles (c : Config) (t : Nat) : Nat := t * c.cyclesPerUs

/-- The longest phase in microseconds, the maximum of R8's last constraint. -/
def longestPhase (c : Config) : Nat :=
  [c.tRstl, c.tMsp, c.tRstrem, c.tInit, c.tSlot - c.tInit, c.tRds, c.tRpad, c.tRec].foldl max 0

/-- The least `w` with `2^w ≥ m`: R7's default of `CNT_W` ("smallest width satisfying rule R8"). -/
def leastWidth (m : Nat) : Nat := if m ≤ 1 then 0 else Nat.log2 (m - 1) + 1

/-- R7's defaults, for a given `CYCLES_PER_US` and `BASE` (both OPEN). The longest default phase is 480 µs (R8). -/
def standard (cyclesPerUs base : Nat) : Config where
  tRstl := 480
  tMsp := 70
  tRstrem := 410
  tInit := 1
  tSlot := 60
  tRds := 14
  tRpad := 45
  tRec := 1
  cyclesPerUs := cyclesPerUs
  syncStages := 2
  cntW := leastWidth (480 * cyclesPerUs)
  base := base

/-- FREE VALUE. The level the bus devices and the pull-up give the released line in cycle `n`, once `State.line` lists
no level for it: "a draw in each cycle", with no law on it (10_state.md R18, 92_eei_decisions.md D25). No body: nothing
can be proved of it. Log entry 4. -/
opaque padLevel : Nat → Bool

end Config
end Sys2Proof
end

