-- ==== Sys2Proof/Syntax.lean ====
section
/-! DEFINITION. The five commands of 30_encoding.md R61, one constructor per row of spec/opcode_table.json. -/

namespace Sys2Proof

/-- A command of the controller. The only operand in a command byte is the bit of OW_WRITE_BIT (30_encoding.md R62);
OW_WRITE_BYTE takes its byte from TXDATA at the accepting edge (41_byte_framer.md R93). -/
inductive Instr where
  /-- OW_RESET: reset pulse and presence detection (40_bus_driver.md R75). -/
  | owReset
  /-- OW_WRITE_BIT: one write slot sending `b` (R80). -/
  | owWriteBit (b : BitVec 1)
  /-- OW_READ_BIT: one read slot (R83). -/
  | owReadBit
  /-- OW_WRITE_BYTE: eight write slots sending TXDATA, LSB first (41_byte_framer.md R92). -/
  | owWriteByte
  /-- OW_READ_BYTE: eight read slots, LSB first (R95). -/
  | owReadByte
deriving DecidableEq, Repr

end Sys2Proof
end

