-- ==== Sys2Proof/WellFormed.lean ====
section
/-! DEFINITION. What is well formed: a command, and a configuration (00_scope.md R8). -/

namespace Sys2Proof

/-- Every term of `Instr` is a command: the one operand is a bit by its type, and either value of it is legal
(30_encoding.md R62 "OW_WRITE_BIT, B either value"). No check is left for this predicate. -/
def Instr.wellFormed : Instr → Bool
  | .owReset => true
  | .owWriteBit _ => true
  | .owReadBit => true
  | .owWriteByte => true
  | .owReadByte => true

/-- The structural constraints of 00_scope.md R8, in its order: "A model refuses any other configuration."
Every parameter is a natural number by its type, so `SYNC_STAGES ≥ 0` needs no check. -/
def Config.wellFormed (c : Config) : Bool :=
  (decide (1 ≤ c.tRstl) && decide (1 ≤ c.tMsp) && decide (1 ≤ c.tRstrem) && decide (1 ≤ c.tInit) &&
    decide (1 ≤ c.tSlot) && decide (1 ≤ c.tRds) && decide (1 ≤ c.tRpad) && decide (1 ≤ c.tRec)) &&
  decide (c.tInit + 1 ≤ c.tSlot) &&
  decide (1 ≤ c.cyclesPerUs) &&
  decide (c.longestPhase * c.cyclesPerUs ≤ 2 ^ c.cntW)

end Sys2Proof
end

