-- ==== Sys2Proof/Decode.lean ====
section
/-! DEFINITION. Decoding of the byte written to CMD (30_encoding.md R60 to R64), total on all 256 bytes and rejecting
by name, and the encoder. -/

namespace Sys2Proof

/-- Why a byte is no command: the three bullets of 30_encoding.md R63. A write of such a byte to CMD is DEFINED: it is
rejected with ERRCODE ILLEGAL (60_exceptions.md R110); so this is no fault and no refusal of the machine. -/
inductive IllegalByte where
  /-- RSV ≠ 0b0000. -/
  | reservedBits
  /-- OP = 0b000, 0b110 or 0b111. -/
  | noSuchOp
  /-- B = 1 with OP ≠ 0b010. -/
  | strayOperand
deriving DecidableEq, Repr

/-- OP, bits 2:0 (R60). -/
def opField (v : Byte) : BitVec 3 := v.extractLsb' 0 3

/-- B, bit 3 (R60). -/
def bField (v : Byte) : BitVec 1 := v.extractLsb' 3 1

/-- RSV, bits 7:4 (R60). -/
def rsvField (v : Byte) : BitVec 4 := v.extractLsb' 4 4

/-- A command without operand: B must be 0 (R60). -/
def withoutOperand (b : BitVec 1) (i : Instr) : Except IllegalByte Instr :=
  if b = 0#1 then .ok i else .error .strayOperand

/-- Decode a byte written to CMD (R62). -/
def decodeByte (v : Byte) : Except IllegalByte Instr :=
  if rsvField v ≠ 0#4 then .error .reservedBits
  else match (opField v).toNat with
    | 1 => withoutOperand (bField v) .owReset
    | 2 => .ok (.owWriteBit (bField v))
    | 3 => withoutOperand (bField v) .owReadBit
    | 4 => withoutOperand (bField v) .owWriteByte
    | 5 => withoutOperand (bField v) .owReadByte
    | _ => .error .noSuchOp

/-- `legal(v)` of R62, as the spec writes it. -/
def legalByte (v : Byte) : Bool :=
  v.extractLsb' 4 4 == 0#4 &&
    (v.extractLsb' 0 3 == 2#3 ||
      (v.getLsbD 3 == false && [1#3, 3#3, 4#3, 5#3].contains (v.extractLsb' 0 3)))

/-- The OP code of a command (R61); an accepted command's `op` register takes it (10_state.md R36). -/
def Instr.opCode : Instr → BitVec 3
  | .owReset => 1#3
  | .owWriteBit _ => 2#3
  | .owReadBit => 3#3
  | .owWriteByte => 4#3
  | .owReadByte => 5#3

/-- The B field of a command: 0 for every command but OW_WRITE_BIT (R60). -/
def Instr.bOperand : Instr → BitVec 1
  | .owWriteBit b => b
  | .owReset | .owReadBit | .owWriteByte | .owReadByte => 0#1

/-- The command byte `RRRR B OOO` with R = 0 (R60). -/
def encode (i : Instr) : Byte := 0#4 ++ i.bOperand ++ i.opCode

/-- The host's question in the table's own numbering: every row of spec/opcode_table.json is 8 bits wide, and R60 gives
no other length. A command is one byte, so the word is the byte. -/
def decodeTableWord (nbits w : Nat) : Option Instr :=
  if nbits = 8 ∧ w < 256 then (decodeByte (BitVec.ofNat 8 w)).toOption else none

/-! Each constructor's decoding, shown by the byte written out from 30_encoding.md R64. -/

theorem decodeByte_owReset : decodeByte 0b00000001#8 = .ok .owReset := by decide
theorem decodeByte_owWriteBit_zero : decodeByte 0b00000010#8 = .ok (.owWriteBit 0#1) := by decide
theorem decodeByte_owWriteBit_one : decodeByte 0b00001010#8 = .ok (.owWriteBit 1#1) := by decide
theorem decodeByte_owReadBit : decodeByte 0b00000011#8 = .ok .owReadBit := by decide
theorem decodeByte_owWriteByte : decodeByte 0b00000100#8 = .ok .owWriteByte := by decide
theorem decodeByte_owReadByte : decodeByte 0b00000101#8 = .ok .owReadByte := by decide

end Sys2Proof
end

