-- ==== Sys2Proof/Machine/State.lean ====
section
/-! DEFINITION. The machine's state: everything 10_state.md R40 lists, plus the model's own fields (the configuration,
the power-up flag, the two environment scripts and the cycle counter). Plain data only. -/

namespace Sys2Proof.Machine

/-- The nine FSM phases of 10_state.md R33. -/
inductive Phase where
  /-- IDLE: no command in progress. -/
  | idle
  /-- RST_LOW: OW_RESET drives the reset pulse. -/
  | rstLow
  /-- RST_WAIT: released, up to the presence sample. -/
  | rstWait
  /-- RST_REM: the remainder of the presence window. -/
  | rstRem
  /-- INIT: the low time that starts every slot. -/
  | init
  /-- WBODY: the body of a write slot. -/
  | wbody
  /-- RWAIT: a read slot, up to the sample. -/
  | rwait
  /-- RPAD: a read slot, after the sample. -/
  | rpad
  /-- REC: recovery, at the end of every slot. -/
  | recov
deriving DecidableEq, Repr

/-- What the host does on its port in one cycle (20_memory.md R59, 00_scope.md R13), at the host's own addresses
(the register `a` of the block is at `BASE + a`, R47). One cycle holds at most one of these, so two accesses in one
cycle cannot be written down (93_implementation_defined.md U14). -/
inductive HostAccess where
  /-- No access in this cycle. -/
  | noAccess
  /-- `MemRead(addr, 1)`. -/
  | memRead (addr : Nat)
  /-- `MemWrite(addr, 1, v)`. -/
  | memWrite (addr : Nat) (v : Byte)
  /-- An access of `bytes` bytes where `bytes ≠ 1`: no move of the host; a model refuses it (R44). -/
  | wide (addr : Nat) (bytes : Nat)
deriving DecidableEq, Repr

/-- The host's side of one clock cycle: the `rst` input and the access. -/
structure HostCycle where
  rst : Bool
  access : HostAccess
deriving DecidableEq, Repr

/-- The host port's input signals in one cycle (10_state.md R16); `we` is meaningful only when `sel` is true. -/
structure Bus where
  sel : Bool
  we : Bool
  addr : RegAddr
  wdata : Byte
deriving DecidableEq, Repr

/-- The reasons the machine stops with a fault. -/
inductive Fault where
  /-- Raised by the phase advance (Machine/Ops.lean `fsmEdge`) when INIT ends and `op` is none of WBIT, WBYTE, RBIT,
  RBYTE: 40_bus_driver.md R72 gives no next phase, and "INIT is never entered with op = RESET". Safe: the model stops
  where the spec gives nothing, and no run from reset gets there. Log entry 7. -/
  | noTransition
deriving DecidableEq, Repr

/-- The reasons the model refuses a step. -/
inductive Refusal where
  /-- A command whose meaning is not written yet; raised by `exec`'s arms alone. Safe: the model stops. -/
  | notModelled (mnemonic : String)
  /-- Raised by `step` on a configuration outside 00_scope.md R8 ("A model refuses any other configuration"). Safe. -/
  | badConfig
  /-- Raised by `step` when the machine runs on before any edge with `rst = 1` ("A model that starts anywhere else
  refuses the run", 70_reset_and_hazards.md R125). Safe. -/
  | beforeReset
  /-- Raised by `step` on an access to the block's window of a width other than one byte ("a model refuses it",
  20_memory.md R44). Safe. -/
  | wideAccess
deriving DecidableEq, Repr

/-- The state of the machine in one clock cycle. -/
structure State where
  /-- The configuration (00_scope.md R7); the model's own field, changed by no step. -/
  cfg : Config
  /-- FSM phase (10_state.md R32, R33). -/
  phase : Phase
  /-- Cycles left in the current phase, minus one (R32). -/
  cnt : Nat
  /-- Operation code of the accepted command (R32, R36). -/
  op : BitVec 3
  /-- The bits to send (R32). -/
  txbuf : Byte
  /-- The bits sampled so far by a read command (R32). -/
  rxbuf : Byte
  /-- Index of the current slot within a command (R32). -/
  bitidx : BitVec 3
  /-- `pres_s`: the presence sample, true if the line was sampled low (R32). -/
  presS : Bool
  /-- The input synchronizer `sync[1..SYNC_STAGES]`, `sync[1]` first (R38). -/
  sync : List Bool
  /-- STATUS.DONE (R23). -/
  done : Bool
  /-- STATUS.PRESENT (R24). -/
  present : Bool
  /-- STATUS.CMDERR (R25). -/
  cmderr : Bool
  /-- STATUS.ERRCODE (R25). -/
  errcode : BitVec 2
  /-- TXDATA (R27). -/
  txdata : Byte
  /-- RXDATA (R28). -/
  rxdata : Byte
  /-- CTRL.IRQ_EN (R29). -/
  irqEn : Bool
  /-- Whether an edge with `rst = 1` has been seen since power-up (R125); the model's own field. -/
  launched : Bool
  /-- The host's moves in this cycle (head) and the coming ones; past the end, none. The model's own field. -/
  host : List HostCycle
  /-- The level of the released line in this cycle (head) and the coming ones; past the end, `Config.padLevel`.
  The model's own field. -/
  line : List Bool
  /-- The number of the current cycle (00_scope.md R12); the model's own field. -/
  cycle : Nat
deriving DecidableEq, Repr

/-- The reset values of 10_state.md R40 under the configuration `c`; nothing scripted for the environment. -/
def State.resetWith (c : Config) : State where
  cfg := c
  phase := .idle
  cnt := 0
  op := 0#3
  txbuf := 0x00#8
  rxbuf := 0x00#8
  bitidx := 0#3
  presS := false
  sync := List.replicate c.syncStages true
  done := false
  present := false
  cmderr := false
  errcode := 0#2
  txdata := 0x00#8
  rxdata := 0x00#8
  irqEn := false
  launched := true
  host := []
  line := []
  cycle := 0

/-- The machine right after reset with R7's defaults. DESIGN CHOICE (log entry 2): the two OPEN parameters stand at
`CYCLES_PER_US = 1` and `BASE = 0` here; statements speak of `State.resetWith c` or of every state. -/
def State.reset : State := State.resetWith (Config.standard 1 0)

end Sys2Proof.Machine
end

