-- ==== Sys2Proof/Machine/Line.lean ====
section
/-! DEFINITION. The 1-Wire line: what drives it, what level it has, and what the controller sees of it
(10_state.md R17, R18, R33, R34, R38; 40_bus_driver.md R69). A level is a Bool: true is high (00_scope.md R14). -/

namespace Sys2Proof.Machine

/-- The host's side of the current cycle; past the end of the script, no access and `rst = 0` (log entry 3). -/
def State.hostNow (s : State) : HostCycle := s.host.headD { rst := false, access := .noAccess }

/-- The `rst` input in the current cycle. -/
def State.rstNow (s : State) : Bool := s.hostNow.rst

/-- The level the bus devices and the pull-up give the released line in the current cycle: a draw (R18). -/
def State.padNow (s : State) : Bool :=
  match s.line with
  | level :: _ => level
  | [] => Config.padLevel s.cycle

/-- The bit a write slot sends: `txbuf[bitidx]` (R33). -/
def State.txBit (s : State) : Bool := s.txbuf.getLsbD s.bitidx.toNat

/-- `drive(phase, txbuf, bitidx)`, the table of R33. -/
def State.drives (s : State) : Bool :=
  match s.phase with
  | .idle => false
  | .rstLow => true
  | .rstWait => false
  | .rstRem => false
  | .init => true
  | .wbody => !s.txBit
  | .rwait => false
  | .rpad => false
  | .recov => false

/-- The output `ow_oe`: "(rst = 0) ∧ drive(phase, txbuf, bitidx)" (R34). -/
def State.owOe (s : State) : Bool := !s.rstNow && s.drives

/-- The input `ow_i`, the line's level at the pad: 0 if `ow_oe = 1`, otherwise the draw (R18). -/
def State.owI (s : State) : Bool := if s.owOe then false else s.padNow

/-- `line_sync`: the last synchronizer stage, and `ow_i` itself where there is no stage (R38). -/
def State.lineSync (s : State) : Bool := s.sync.getLastD s.owI

/-- One shift of the synchronizer: `sync[1] <- ow_i`, `sync[k] <- sync[k-1]` (R38). -/
def State.shiftSync (s : State) : State := { s with sync := (s.owI :: s.sync).dropLast }

end Sys2Proof.Machine
end

