-- ==== Sys2Proof/Machine/Operands.lean ====
section
/-! DEFINITION. The operand forms: the bit of the command byte, the byte of TXDATA, the buffers a command sends from
and samples into, and what an operation code says about them (30_encoding.md R61, R62; 41_byte_framer.md R93, R96). -/

namespace Sys2Proof.Machine

/-- `zext_8(B)`: the operand of OW_WRITE_BIT (40_bus_driver.md R70). -/
def bitOperand (b : BitVec 1) : Byte := b.setWidth 8

/-- `txbuf <- v`. -/
def State.latchTx (v : Byte) (s : State) : State := { s with txbuf := v }

/-- `rxbuf <- 0x00`. -/
def State.clearRx (s : State) : State := { s with rxbuf := 0x00#8 }

/-- `v` with bit `i` set to `b` and every other bit kept (41_byte_framer.md R96: no carries). -/
def placeBit (v : Byte) (i : BitVec 3) (b : Bool) : Byte :=
  (v &&& ~~~(1#8 <<< i.toNat)) ||| ((BitVec.ofBool b).setWidth 8 <<< i.toNat)

/-- `op = RESET` (30_encoding.md R61). -/
def isResetOp (op : BitVec 3) : Bool := op == 1#3

/-- `op ∈ {WBIT, WBYTE}`. -/
def isWriteOp (op : BitVec 3) : Bool := op == 2#3 || op == 4#3

/-- `op ∈ {RBIT, RBYTE}`. -/
def isReadOp (op : BitVec 3) : Bool := op == 3#3 || op == 5#3

/-- `op ∈ {WBYTE, RBYTE}`. -/
def isByteOp (op : BitVec 3) : Bool := op == 4#3 || op == 5#3

end Sys2Proof.Machine
end

