-- ==== Sys2Proof/Machine/Flags.lean ====
section
/-! DEFINITION. The STATUS flags (10_state.md R21 to R26, R31), the CTRL byte (R29) and the interrupt output
(60_exceptions.md R113). -/

namespace Sys2Proof.Machine

/-- ERRCODE 0b00: no error recorded (10_state.md R25). -/
def errNone : BitVec 2 := 0#2

/-- ERRCODE 0b01 ILLEGAL. -/
def errIllegal : BitVec 2 := 1#2

/-- ERRCODE 0b10 BUSY. -/
def errBusy : BitVec 2 := 2#2

/-- `STATUS.BUSY = (phase ≠ IDLE)`: no storage of its own (R22). -/
def State.busy (s : State) : Bool := decide (s.phase ≠ .idle)

/-- The byte a STATUS read returns: {0, LINE, ERRCODE, CMDERR, PRESENT, DONE, BUSY}, bit 7 first (20_memory.md R50). -/
def State.statusByte (s : State) : Byte :=
  0#1 ++ BitVec.ofBool s.lineSync ++ s.errcode ++ BitVec.ofBool s.cmderr ++ BitVec.ofBool s.present ++
    BitVec.ofBool s.done ++ BitVec.ofBool s.busy

/-- The byte a CTRL read returns: {0b0000000, IRQ_EN} (R50). -/
def State.ctrlByte (s : State) : Byte := 0#7 ++ BitVec.ofBool s.irqEn

/-- The interrupt output: "CTRL.IRQ_EN and (STATUS.DONE or STATUS.CMDERR)" (60_exceptions.md R113). -/
def State.irq (s : State) : Bool := s.irqEn && (s.done || s.cmderr)

/-- `STATUS.DONE <- 0` (10_state.md R23 case 4). -/
def State.clearDone (s : State) : State := { s with done := false }

/-- `STATUS.CMDERR <- 0; STATUS.ERRCODE <- 0b00` (10_state.md R25 case 3). -/
def State.clearErr (s : State) : State := { s with cmderr := false, errcode := errNone }

end Sys2Proof.Machine
end

