-- ==== Sys2Proof/Machine/Ops.lean ====
section
/-! DEFINITION. The shared operations of one clock edge: the phase advance and its exit actions (40_bus_driver.md R71
to R73), acceptance (R70), the one exception-like event `Reject` and its acknowledgement (60_exceptions.md R110, R116),
and reset (70_reset_and_hazards.md R123). -/

namespace Sys2Proof.Machine

/-- A phase's duration in microseconds, the column of 10_state.md R33. IDLE has none; 0 stands for it so that entering
IDLE loads `cnt` with 0 (R71). -/
def phaseUs (c : Config) : Phase → Nat
  | .idle => 0
  | .rstLow => c.tRstl
  | .rstWait => c.tMsp
  | .rstRem => c.tRstrem
  | .init => c.tInit
  | .wbody => c.tSlot - c.tInit
  | .rwait => c.tRds
  | .rpad => c.tRpad
  | .recov => c.tRec

/-- A phase's duration in cycles, `N(Dur(phase))`. -/
def phaseCycles (c : Config) (p : Phase) : Nat := c.cycles (phaseUs c p)

/-- `phase <- p ; cnt <- N(Dur(p)) − 1`, and `cnt <- 0` for IDLE (R71). -/
def State.enter (p : Phase) (s : State) : State := { s with phase := p, cnt := phaseCycles s.cfg p - 1 }

/-- `Next(phase)` of R72, a function of `op` and `bitidx` alone (R142). `none`: R72 gives no transition (IDLE has none
of its own, and INIT has none for an `op` that is no bit or byte command). -/
def nextPhase (op : BitVec 3) (bitidx : BitVec 3) : Phase → Option Phase
  | .idle => none
  | .rstLow => some .rstWait
  | .rstWait => some .rstRem
  | .rstRem => some .idle
  | .init => if isWriteOp op then some .wbody else if isReadOp op then some .rwait else none
  | .wbody => some .recov
  | .rwait => some .rpad
  | .rpad => some .recov
  | .recov => if isByteOp op && decide (bitidx.toNat < 7) then some .init else some .idle

/-- `pres_s <- (Sample() = 0)` (R76). -/
def State.samplePresence (level : Bool) (s : State) : State := { s with presS := !level }

/-- `rxbuf[bitidx] <- Sample()` (R84). -/
def State.sampleBit (level : Bool) (s : State) : State := { s with rxbuf := placeBit s.rxbuf s.bitidx level }

/-- `bitidx <- bitidx + 1` (41_byte_framer.md R91). -/
def State.nextSlot (s : State) : State := { s with bitidx := s.bitidx + 1#3 }

/-- `Complete()` (R73), all but the move to IDLE, which `State.enter` makes at the same edge. -/
def State.complete (s : State) : State :=
  { s with
    done := true
    present := if isResetOp s.op then s.presS else s.present
    rxdata := if isReadOp s.op then s.rxbuf else s.rxdata }

/-- `Exit(phase)` of R72: the exit action at the edge that ends the phase, where `level` is `Sample()` and `next` is
`Next(phase)`. -/
def State.exitAction (level : Bool) (next : Phase) (s : State) : State :=
  match s.phase with
  | .idle => s
  | .rstLow => s
  | .rstWait => s.samplePresence level
  | .rstRem => s.complete
  | .init => s
  | .wbody => s
  | .rwait => s.sampleBit level
  | .rpad => s
  | .recov => if next = .init then s.nextSlot else s.complete

/-- `cnt <- cnt − 1` (R71). -/
def State.countDown (s : State) : State := { s with cnt := s.cnt - 1 }

/-- The part of the edge function that no host access takes part in (R74): the synchronizer shifts, and where a command
is in progress its phase advances (R71). `Sample()` is `line_sync` of the state before the edge (R69). `none`: the phase
ends and R72 gives no next one. -/
def fsmEdge (s : State) : Option State :=
  if s.phase = .idle then some s.shiftSync
  else if s.cnt > 0 then some s.shiftSync.countDown
  else (nextPhase s.op s.bitidx s.phase).map fun p => (s.shiftSync.exitAction s.lineSync p).enter p

/-- Whether the coming edge is a completion edge (R73): a command's last phase ends. -/
def State.completionEdge (s : State) : Bool :=
  decide (s.phase ≠ .idle) && decide (s.cnt = 0) && decide (nextPhase s.op s.bitidx s.phase = some .idle)

/-- One edge with `rst = 0` whose host access does `access` on top of the rest of the edge. -/
def onEdge (s : State) (access : State → State) : Host.Outcome State Fault Refusal :=
  match fsmEdge s with
  | some t => .next (access t)
  | none => .fault .noTransition

/-- Acceptance (R70): `op` and `bitidx` are loaded, DONE is cleared and the first phase begins. -/
def State.accept (op : BitVec 3) (first : Phase) (s : State) : State :=
  ({ s with op := op, bitidx := 0#3, done := false } : State).enter first

/-- `Reject(code)` (60_exceptions.md R110): the controller's one exception-like event. It records the first rejection
since CMDERR was last cleared, changes nothing else and redirects nothing (R115). -/
def State.reject (code : BitVec 2) (s : State) : State :=
  if s.cmderr then s else { s with cmderr := true, errcode := code }

/-- The return from it: a write of `v` to STATUS (R116, 10_state.md R21). `v[1]` clears DONE, except at a completion
edge, which wins (R23); `v[3]` clears CMDERR and ERRCODE (R25); every other bit is ignored. -/
def State.acknowledge (completion : Bool) (v : Byte) (s : State) : State :=
  let s := if v.getLsbD 1 && !completion then s.clearDone else s
  if v.getLsbD 3 then s.clearErr else s

/-- The edge of a CMD write of a legal byte (R74): BUSY is checked first (R114); an idle controller accepts, after
`load` has put the command's operand in place (R70). -/
def issue (op : BitVec 3) (first : Phase) (load : State → State) (s : State) : Host.Outcome State Fault Refusal :=
  onEdge s fun t => if s.phase = .idle then (load t).accept op first else t.reject errBusy

/-- The edge of a CMD write of an illegal byte (R110): rejected with BUSY while a command is in progress, else with
ILLEGAL (R114). -/
def issueIllegal (s : State) : Host.Outcome State Fault Refusal :=
  onEdge s fun t => t.reject (if s.phase = .idle then errIllegal else errBusy)

/-- The edge with `rst = 1` (70_reset_and_hazards.md R123): every state element takes its value of 10_state.md R40,
whatever its value and whatever the host's access. The configuration and the environment are no state elements. -/
def State.resetEdge (s : State) : State :=
  { State.resetWith s.cfg with host := s.host, line := s.line, cycle := s.cycle }

/-- The environment moves on to its next cycle. -/
def State.endCycle (s : State) : State :=
  { s with host := s.host.tail, line := s.line.tail, cycle := s.cycle + 1 }

/-- The end of the cycle, for the state an edge answers. -/
def thenEndCycle : Host.Outcome State Fault Refusal → Host.Outcome State Fault Refusal
  | .next s => .next s.endCycle
  | .fault r => .fault r
  | .refused r => .refused r

end Sys2Proof.Machine
end

