-- ==== Sys2Proof/Machine/BusDriver.lean ====
section
/-! DEFINITION. The Bus Driver's commands (40_bus_driver.md R75, R80, R83): each meaning is the edge at which the
command's CMD write is presented; the phases that follow are advanced by every later edge (log entry 11). -/

namespace Sys2Proof.Machine

/-- OW_RESET (R75): `phase <- RST_LOW`; no operand. -/
def execOwReset (s : State) : Host.Outcome State Fault Refusal :=
  issue (Instr.opCode .owReset) .rstLow id s

/-- OW_WRITE_BIT (R80): `txbuf <- zext_8(B)`, `phase <- INIT`. -/
def execOwWriteBit (b : BitVec 1) (s : State) : Host.Outcome State Fault Refusal :=
  issue (Instr.opCode (.owWriteBit b)) .init (State.latchTx (bitOperand b)) s

/-- OW_READ_BIT (R83): `rxbuf <- 0x00`, `phase <- INIT`. -/
def execOwReadBit (s : State) : Host.Outcome State Fault Refusal :=
  issue (Instr.opCode .owReadBit) .init State.clearRx s

end Sys2Proof.Machine
end

