-- ==== Sys2Proof/Machine/ByteFramer.lean ====
section
/-! DEFINITION. The Byte Framer's commands (41_byte_framer.md R92, R95): each meaning is the edge at which the
command's CMD write is presented; the eight slots that follow are advanced by every later edge (log entry 11). -/

namespace Sys2Proof.Machine

/-- OW_WRITE_BYTE (R92): `txbuf <- TXDATA`, the TXDATA of the cycle of the CMD write (R93); `phase <- INIT`. -/
def execOwWriteByte (s : State) : Host.Outcome State Fault Refusal :=
  issue (Instr.opCode .owWriteByte) .init (State.latchTx s.txdata) s

/-- OW_READ_BYTE (R95): `rxbuf <- 0x00`, `phase <- INIT`. -/
def execOwReadByte (s : State) : Host.Outcome State Fault Refusal :=
  issue (Instr.opCode .owReadByte) .init State.clearRx s

end Sys2Proof.Machine
end

