-- ==== Sys2Proof/Machine/Dispatch.lean ====
section
/-! DEFINITION. One arm per command: the edge at which the host presents the command's CMD write (40_bus_driver.md R74). -/

namespace Sys2Proof.Machine

def exec (i : Instr) (s : State) : Host.Outcome State Fault Refusal :=
  match i with
  | .owReset => Sys2Proof.Machine.execOwReset s
  | .owWriteBit b => Sys2Proof.Machine.execOwWriteBit b s
  | .owReadBit => Sys2Proof.Machine.execOwReadBit s
  | .owWriteByte => Sys2Proof.Machine.execOwWriteByte s
  | .owReadByte => Sys2Proof.Machine.execOwReadByte s

end Sys2Proof.Machine
end

