-- ==== Sys2Proof/Machine/HostPort.lean ====
section
/-! DEFINITION. The host port (20_memory.md): where the host's accesses land (R44, R47), register reads (R50), and the
edges of register writes other than CMD (R49, 10_state.md R27 to R30). -/

namespace Sys2Proof.Machine

/-- The port in a cycle without an access to this block. -/
def noBus : Bus := { sel := false, we := false, addr := 0#3, wdata := 0x00#8 }

/-- Whether the byte at host address `a` is one of the block's eight, `BASE` to `BASE + 7` (R47). -/
def inWindow (c : Config) (a : Nat) : Bool := decide (c.base ≤ a) && decide (a < c.base + 8)

/-- Whether any of the `n` bytes from host address `a` is one of the block's eight. -/
def touchesWindow (c : Config) (a n : Nat) : Bool := decide (a < c.base + 8) && decide (c.base < a + n)

/-- The port signals of the host's access (R47: "The host's address of register `a` is `BASE + a`"). An access outside
the block's window does not select the block (log entry 9); one in the window of another width than a byte is refused
(R44). -/
def busOf (c : Config) : HostAccess → Except Refusal Bus
  | .noAccess => .ok noBus
  | .memRead a =>
    .ok (if inWindow c a then { sel := true, we := false, addr := BitVec.ofNat 3 (a - c.base), wdata := 0x00#8 } else noBus)
  | .memWrite a v =>
    .ok (if inWindow c a then { sel := true, we := true, addr := BitVec.ofNat 3 (a - c.base), wdata := v } else noBus)
  | .wide a n => if touchesWindow c a n then .error .wideAccess else .ok noBus

/-- The register at address `a` as a read shows it in the current cycle (R50). -/
def State.regRead (s : State) (a : RegAddr) : Byte :=
  match a.toNat with
  | 0 => 0x00#8
  | 1 => s.statusByte
  | 2 => s.txdata
  | 3 => s.rxdata
  | 4 => s.ctrlByte
  | _ => 0x00#8

/-- `bus_rdata` for the port signals `bus` (R50). -/
def State.rdata (s : State) (bus : Bus) : Byte :=
  if bus.sel && !bus.we then s.regRead bus.addr else 0x00#8

/-- The output `bus_rdata` in the current cycle (R50). For a wide access to the block's window R44 defines none, and the
model shows 0x00 (DESIGN CHOICE, log entry 15): where the step refuses the access, and also in a cycle with `rst = 1`,
where the step goes on (log entry 12). -/
def State.busRdata (s : State) : Byte :=
  match busOf s.cfg s.hostNow.access with
  | .ok bus => s.rdata bus
  | .error _ => 0x00#8

/-- `s` with a host move in its coming cycle, instead of the move scripted for it. -/
def State.withAccess (s : State) (a : HostAccess) : State :=
  { s with host := { rst := false, access := a } :: s.host.tail }

/-- A write to address 0, CMD: a command issue (10_state.md R20). -/
def Bus.writesCmd (bus : Bus) : Bool := bus.sel && bus.we && decide (bus.addr = 0#3)

/-- `STATUS` write: the acknowledgement (10_state.md R21). -/
def statusWrite (v : Byte) (s : State) : Host.Outcome State Fault Refusal :=
  onEdge s (State.acknowledge s.completionEdge v)

/-- `TXDATA <- v`, whatever the phase (R27). -/
def txdataWrite (v : Byte) (s : State) : Host.Outcome State Fault Refusal :=
  onEdge s fun t => { t with txdata := v }

/-- `IRQ_EN <- v[0]` (R29). -/
def ctrlWrite (v : Byte) (s : State) : Host.Outcome State Fault Refusal :=
  onEdge s fun t => { t with irqEn := v.getLsbD 0 }

/-- An edge whose host access has no effect: none, a read (R46), or an ignored write (R30). -/
def quietEdge (s : State) : Host.Outcome State Fault Refusal := onEdge s id

/-- The edge of every access but a CMD write (R74). -/
def portEdge (bus : Bus) (s : State) : Host.Outcome State Fault Refusal :=
  if bus.sel && bus.we then
    match bus.addr.toNat with
    | 1 => statusWrite bus.wdata s
    | 2 => txdataWrite bus.wdata s
    | 4 => ctrlWrite bus.wdata s
    | _ => quietEdge s
  else quietEdge s

end Sys2Proof.Machine
end

