-- ==== Sys2Proof/Machine/Step.lean ====
section
/-! DEFINITION. One step is one rising edge of `clk` (00_scope.md R6, R15; 40_bus_driver.md R74). -/

namespace Sys2Proof.Machine

/-- The edge with `rst = 0` for the port signals `bus` (R74): a CMD write is decoded and issued, every other access has
its own edge. -/
def busEdge (bus : Bus) (s : State) : Host.Outcome State Fault Refusal :=
  if bus.writesCmd then
    match decodeByte bus.wdata with
    | .ok i => exec i s
    | .error _ => issueIllegal s
  else portEdge bus s

/-- One clock edge. A configuration outside R8 is refused; `rst = 1` wins over everything (60_exceptions.md R114); a
machine that was never reset is refused (70_reset_and_hazards.md R125); an access wider than a byte is refused
(20_memory.md R44); otherwise R74. -/
def step (s : State) : Host.Outcome State Fault Refusal :=
  if s.cfg.wellFormed = false then .refused .badConfig
  else if s.rstNow = true then .next s.resetEdge.endCycle
  else if s.launched = false then .refused .beforeReset
  else
    match busOf s.cfg s.hostNow.access with
    | .error r => .refused r
    | .ok bus => thenEndCycle (busEdge bus s)

/-- `s` whose coming cycle presents a write of the byte `w` to CMD: the machine fetches nothing (10_state.md R35), its
commands come from the host's port. Every command is 8 bits long (30_encoding.md R60), so `nbits` says nothing more. -/
def State.withFetchWord (s : State) (_nbits w : Nat) : State :=
  s.withAccess (.memWrite s.cfg.base (BitVec.ofNat 8 w))

end Sys2Proof.Machine
end

