-- ==== Sys2Proof/Machine/HostProgram.lean ====
section
/-! DEFINITION. Host programs on top of the controller (30_encoding.md R66, R67; 45_host_sequences.md R100 to R107).
They bind no rule of the block (00_scope.md R4); the controller's `step` does not know of this file. -/

namespace Sys2Proof.Machine

/-- One line of a host program (30_encoding.md R66), one register access or less in each cycle. -/
inductive HostOp where
  /-- `WR a, v`. -/
  | wr (a : RegAddr) (v : Byte)
  /-- `RD a -> name`: the byte joins `System.reads`. -/
  | rd (a : RegAddr)
  /-- `WAIT_IDLE`: STATUS is read in every cycle until BUSY reads 0 (R100). -/
  | waitIdle
  /-- `n` further cycles without an access (at least one cycle in all). -/
  | waitCycles (n : Nat)
  /-- `if p0 = 0 halt`, where `p0` is bit 2 of the last byte read: the start-up failure is reported and the host stops
  for good (R104). -/
  | haltIfAbsent
  /-- `t = Decode(lsb, msb)` of the last two bytes read, in that order: step 9 of a session (R102). -/
  | decode
  /-- One report of `t` (R107). -/
  | report
deriving DecidableEq, Repr

/-- What the host puts out. -/
inductive HostOutput where
  /-- The diagnostic of a failed start-up check (R104). -/
  | noDevice
  /-- The report of a reading, in degrees Celsius. Its format (R108) is out of scope (00_scope.md R4). -/
  | reading (t : Rat)
deriving DecidableEq, Repr

/-- The controller and the host that runs a program on it. -/
structure System where
  ctl : State
  /-- The lines still to run. -/
  prog : List HostOp
  /-- What the host runs again and again once `prog` has ended (R107); empty for a program that ends. -/
  loop : List HostOp := []
  /-- The bytes of the `RD` lines, oldest first. -/
  reads : List Byte := []
  /-- The host's `t`, once a session has given it one (R102 step 9). -/
  temperature : Option Rat := none
  /-- Oldest first. -/
  outputs : List HostOutput := []
  /-- Whether the host has halted (R104), which is not the end of a program. -/
  halted : Bool := false
deriving DecidableEq, Repr

/-- `OW_RESET`, `OW_WRITE_BIT b`, …: a write of the command's byte to CMD (R66). -/
def HostOp.command (i : Instr) : HostOp := .wr 0#3 (encode i)

/-- `WAIT_MS n`: the controller takes no part (R66, R103); a millisecond is 1000 µs of CYCLES_PER_US cycles each. -/
def waitMs (c : Config) (n : Nat) : List HostOp := [.waitCycles (c.cycles (n * 1000))]

/-- `OW_SEND imm8` (R101). -/
def owSend (v : Byte) : List HostOp := [.wr 2#3 v, .command .owWriteByte, .waitIdle]

/-- `OW_RECV -> x` (R101). -/
def owRecv : List HostOp := [.command .owReadByte, .waitIdle, .rd 3#3]

/-- `OW_PRESENCE -> p` (R101): `p` is bit 2 of the byte read. -/
def owPresence : List HostOp := [.command .owReset, .waitIdle, .rd 1#3]

/-- `SKIP_ROM`, `CONVERT_T`, `READ_SCRATCHPAD` (R101). -/
def skipRom : List HostOp := owSend 0xCC#8
def convertT : List HostOp := owSend 0x44#8
def readScratchpad : List HostOp := owSend 0xBE#8

/-- The start-up check (R104): p0 is the one byte it reads. -/
def startupCheck : List HostOp := owPresence ++ [.haltIfAbsent]

/-- One sensor session, steps 1 to 9 (R102): its reads are STATUS, STATUS, the LSB, the MSB, and step 9 decodes the last
two. -/
def session (c : Config) : List HostOp :=
  owPresence ++ skipRom ++ convertT ++ waitMs c 750 ++ owPresence ++ skipRom ++ readScratchpad ++ owRecv ++ owRecv ++
    [.decode]

/-- One round of the polling loop (R107): a session, a report, and a wait of "about 1000 ms" (log entry 14). -/
def pollingRound (c : Config) : List HostOp := session c ++ [.report] ++ waitMs c 1000

/-- The whole host program: the start-up check, and the polling loop after it (R104, R107). -/
def sensorHost (s : State) : System := { ctl := s, prog := startupCheck, loop := pollingRound s.cfg }

/-- `sint16({msb, lsb})` of R106, the temperature in sixteenths of a degree. -/
def rawTemperature (lsb msb : Byte) : Int := (msb ++ lsb).toInt

/-- `Decode(lsb, msb)` in degrees Celsius (R106). -/
def decodeTemperature (lsb msb : Byte) : Rat := (rawTemperature lsb msb : Rat) / 16

/-- Step 9 of a session (R102) on the bytes read so far: the last but one is the LSB, the last the MSB. -/
def readsTemperature (reads : List Byte) : Option Rat :=
  match reads.reverse with
  | msb :: lsb :: _ => some (decodeTemperature lsb msb)
  | _ => none

/-- The result of the start-up check (R104, `p = s[2]` of R101): PRESENT in the last byte read. -/
def readsPresence (reads : List Byte) : Bool := (reads.getLastD 0#8).getLsbD 2

/-- The lines the host still runs: none once it has halted. -/
def System.todo (y : System) : List HostOp := if y.halted then [] else y.prog

/-- The access the host makes in this cycle. -/
def System.access (y : System) : HostAccess :=
  match y.todo with
  | .wr a v :: _ => .memWrite (y.ctl.cfg.base + a.toNat) v
  | .rd a :: _ => .memRead (y.ctl.cfg.base + a.toNat)
  | .waitIdle :: _ => .memRead (y.ctl.cfg.base + 1)
  | .waitCycles _ :: _ => .noAccess
  | .haltIfAbsent :: _ => .noAccess
  | .decode :: _ => .noAccess
  | .report :: _ => .noAccess
  | [] => .noAccess

/-- The host after this cycle, given the byte the port returned in it. -/
def System.hostAfter (y : System) (rdata : Byte) : System :=
  match y.todo with
  | .wr _ _ :: p => { y with prog := p }
  | .rd _ :: p => { y with prog := p, reads := y.reads ++ [rdata] }
  | .waitIdle :: p => { y with prog := if rdata.getLsbD 0 then .waitIdle :: p else p }
  | .waitCycles 0 :: p => { y with prog := p }
  | .waitCycles (n + 1) :: p => { y with prog := .waitCycles n :: p }
  | .haltIfAbsent :: p =>
    if readsPresence y.reads then { y with prog := p }
    else { y with prog := [], outputs := y.outputs ++ [.noDevice], halted := true }
  | .decode :: p => { y with prog := p, temperature := readsTemperature y.reads }
  | .report :: p => { y with prog := p, outputs := y.outputs ++ y.temperature.toList.map .reading }
  | [] => if y.halted then y else { y with prog := y.loop }

/-- One cycle of the whole system; `none` where the controller stops. -/
def System.step (y : System) : Option System :=
  let ctl := y.ctl.withAccess y.access
  match Machine.step ctl with
  | .next t => some { y.hostAfter ctl.busRdata with ctl := t }
  | .fault _ => none
  | .refused _ => none

/-- `n` cycles of the whole system. -/
def System.run : Nat → System → Option System
  | 0, y => some y
  | n + 1, y => y.step.bind (System.run n)

end Sys2Proof.Machine
end

