-- ==== Sys2Proof/Machine/Transaction.lean ====
section
/-! DEFINITION. The transaction-level view of a command (00_scope.md R15, 40_bus_driver.md R90): its waveform, duration,
sample instants and committed results as one function, to be held against the edge function. -/

namespace Sys2Proof.Machine

/-- A stretch of the `ow_oe` waveform: `cycles` consecutive cycles with `ow_oe = oe`. -/
structure Segment where
  oe : Bool
  cycles : Nat
deriving DecidableEq, Repr

/-- One write slot sending `b` (R81). -/
def writeSlot (c : Config) (b : Bool) : List Segment :=
  if b then [{ oe := true, cycles := c.cycles c.tInit }, { oe := false, cycles := c.cycles (c.tSlot - c.tInit) + c.cycles c.tRec }]
  else [{ oe := true, cycles := c.cycles c.tSlot }, { oe := false, cycles := c.cycles c.tRec }]

/-- One read slot (R86). -/
def readSlot (c : Config) : List Segment :=
  [{ oe := true, cycles := c.cycles c.tInit },
   { oe := false, cycles := c.cycles c.tRds + c.cycles c.tRpad + c.cycles c.tRec }]

/-- The `ow_oe` waveform of a command from its accepting edge (R78, R81, R86; 41_byte_framer.md R94, R95); `v` is the
TXDATA of the cycle of the CMD write. -/
def waveform (c : Config) (v : Byte) : Instr → List Segment
  | .owReset =>
    [{ oe := true, cycles := c.cycles c.tRstl }, { oe := false, cycles := c.cycles c.tMsp + c.cycles c.tRstrem }]
  | .owWriteBit b => writeSlot c (b.getLsbD 0)
  | .owReadBit => readSlot c
  | .owWriteByte => (List.range 8).flatMap fun k => writeSlot c (v.getLsbD k)
  | .owReadByte => (List.range 8).flatMap fun _ => readSlot c

/-- A waveform cycle by cycle. -/
def expand (w : List Segment) : List Bool := w.flatMap fun g => List.replicate g.cycles g.oe

/-- A read slot's length in cycles (R86). -/
def readSlotCycles (c : Config) : Nat := c.cycles (c.tInit + c.tRds + c.tRpad + c.tRec)

/-- A write slot's length in cycles (R81). -/
def writeSlotCycles (c : Config) : Nat := c.cycles (c.tSlot + c.tRec)

/-- `c − a`, the cycles from the accepting edge to the completion edge (R88). -/
def durationCycles (c : Config) : Instr → Nat
  | .owReset => c.cycles (c.tRstl + c.tMsp + c.tRstrem)
  | .owWriteBit _ => writeSlotCycles c
  | .owReadBit => readSlotCycles c
  | .owWriteByte => 8 * writeSlotCycles c
  | .owReadByte => 8 * readSlotCycles c

/-- The sample edges of a command, as offsets from the accepting edge (R88, last column). -/
def sampleEdges (c : Config) : Instr → List Nat
  | .owReset => [c.cycles (c.tRstl + c.tMsp)]
  | .owWriteBit _ => []
  | .owReadBit => [c.cycles (c.tInit + c.tRds)]
  | .owWriteByte => []
  | .owReadByte => (List.range 8).map fun k => k * readSlotCycles c + c.cycles (c.tInit + c.tRds)

/-- `Σ b_k × 2^k`, the first listed bit being `b_0` (41_byte_framer.md R96). -/
def assemble : List Bool → Nat
  | [] => 0
  | b :: bs => b.toNat + 2 * assemble bs

/-- What a command leaves (R73): `none` where it leaves the register alone. -/
structure CommandResult where
  waveform : List Segment
  present : Option Bool
  rxdata : Option Byte
deriving DecidableEq, Repr

/-- `Exec` of R90: from the command (`op` and B), the TXDATA of cycle `a − 1` and the levels `Sample()` returned at the
sample edges, the waveform and the committed results. -/
def transaction (c : Config) (i : Instr) (v : Byte) (samples : List Bool) : CommandResult where
  waveform := waveform c v i
  present := match i with
    | .owReset => some (!samples.headD false)
    | .owWriteBit _ | .owReadBit | .owWriteByte | .owReadByte => none
  rxdata := match i with
    | .owReadBit | .owReadByte => some (BitVec.ofNat 8 (assemble samples))
    | .owReset | .owWriteBit _ | .owWriteByte => none

end Sys2Proof.Machine
end

