-- ==== Sys2Proof/Safety.lean ====
section
/-! DEFINITION. What the statements speak of: the invariant of every run, runs of several edges, and hosts that leave a
command alone. -/

namespace Sys2Proof

open Sys2Proof.Machine

/-- The operation codes a phase is entered with (10_state.md R36, 40_bus_driver.md R72: "INIT is never entered with
op = RESET, and RST_* is never entered with a bit or byte op"). -/
def phaseAdmitsOp (p : Phase) (op : BitVec 3) : Bool :=
  match p with
  | .idle => decide (op.toNat ≤ 5)
  | .rstLow | .rstWait | .rstRem => isResetOp op
  | .init | .recov => isWriteOp op || isReadOp op
  | .wbody => isWriteOp op
  | .rwait | .rpad => isReadOp op

/-- The first bit position of `rxbuf` that a read command in progress has not sampled (41_byte_framer.md R96). -/
def firstUnsampled (s : State) : Nat :=
  match s.phase with
  | .rpad | .recov => s.bitidx.toNat + 1
  | .idle | .rstLow | .rstWait | .rstRem | .init | .wbody | .rwait => s.bitidx.toNat

/-- The invariant of every run. -/
structure Inv (s : State) : Prop where
  /-- The configuration meets 00_scope.md R8. -/
  config : s.cfg.wellFormed = true
  /-- The synchronizer has SYNC_STAGES stages (10_state.md R38). -/
  stages : s.sync.length = s.cfg.syncStages
  /-- The counter never exceeds the load of its phase (40_bus_driver.md R71), and is 0 in IDLE (60_exceptions.md R118). -/
  counter : s.cnt ≤ phaseCycles s.cfg s.phase - 1
  /-- The phase and the operation agree (R72). -/
  operation : phaseAdmitsOp s.phase s.op = true
  /-- A bit command and OW_RESET stay in slot 0 (41_byte_framer.md R91). -/
  slot : s.phase ≠ .idle → isByteOp s.op = false → s.bitidx = 0#3
  /-- "ERRCODE is nonzero if and only if CMDERR = 1" (10_state.md R25). -/
  error : s.errcode ≠ errNone ↔ s.cmderr = true
  /-- "0b11 reserved and never produced" (R25). -/
  errorCode : s.errcode ≠ 3#2
  /-- "DONE is 0 throughout the command" (40_bus_driver.md R90). -/
  doneLow : s.phase ≠ .idle → s.done = false
  /-- "Positions not yet sampled are still 0" (41_byte_framer.md R96). -/
  unsampled : s.phase ≠ .idle → isReadOp s.op = true → ∀ k, firstUnsampled s ≤ k → s.rxbuf.getLsbD k = false
  /-- OW_WRITE_BIT sends `zext_8(B)` (40_bus_driver.md R70). -/
  bitSent : s.phase ≠ .idle → s.op = Instr.opCode (.owWriteBit 0#1) → s.txbuf.toNat ≤ 1

/-- `n` clock edges (00_scope.md R12). -/
def runs (n : Nat) (s : State) : Host.Outcome State Fault Refusal := core.run n s

/-- A host move that neither asserts `rst` nor is refused (20_memory.md R44, R59). -/
def HostCycle.ordinary (c : Config) (h : HostCycle) : Prop := h.rst = false ∧ ∃ bus, busOf c h.access = .ok bus

/-- For `n` cycles the host makes any accesses it likes, but no `rst` and none the model refuses. -/
def undisturbed (n : Nat) (s : State) : Prop := ∀ h ∈ s.host.take n, HostCycle.ordinary s.cfg h

/-- `ow_oe` in `n` consecutive cycles. -/
def driveTrace : Nat → State → List Bool
  | 0, _ => []
  | n + 1, s =>
    s.owOe :: match step s with
      | .next t => driveTrace n t
      | .fault _ => []
      | .refused _ => []

/-- What `Sample()` returns at the edge that ends the `n`-th of the coming cycles, counted from 1: `line_sync` in that
cycle (40_bus_driver.md R69). -/
def sampleAtEdge (n : Nat) (s : State) : Option Bool :=
  match runs (n - 1) s with
  | .next t => some t.lineSync
  | .fault _ => none
  | .refused _ => none

/-- The part of the state that fixes the timing and the waveform of a command (40_bus_driver.md R142). -/
def pacing (s : State) : Config × Phase × Nat × BitVec 3 × BitVec 3 × Byte :=
  (s.cfg, s.phase, s.cnt, s.op, s.bitidx, s.txbuf)

/-- The part of the state that no host access may touch while a command runs (20_memory.md R56): the pacing, what is
sampled, and the committed results. -/
def commandView (s : State) :
    (Config × Phase × Nat × BitVec 3 × BitVec 3 × Byte) × Byte × Bool × List Bool × Bool × Byte × Bool :=
  (pacing s, s.rxbuf, s.presS, s.sync, s.present, s.rxdata, s.done)

/-- The host port's signals in the current cycle (10_state.md R16); an access the model refuses shows none. -/
def port (s : State) : Bus :=
  match busOf s.cfg s.hostNow.access with
  | .ok bus => bus
  | .error _ => noBus

/-- Whether the host writes the register at address `a` in the current cycle (20_memory.md R49). -/
def writesReg (s : State) (a : RegAddr) : Bool := (port s).sel && (port s).we && decide ((port s).addr = a)

/-- Whether the coming edge accepts a command, `rst` apart (40_bus_driver.md R70). -/
def acceptsNow (s : State) : Bool := decide (s.phase = .idle) && writesReg s 0#3 && legalByte (port s).wdata

/-- Whether the coming edge rejects a CMD write, `rst` apart (60_exceptions.md R110). -/
def rejectsNow (s : State) : Bool := writesReg s 0#3 && !acceptsNow s

/-- The machine can take its next edge: the configuration is legal and a reset has been seen (R8, R125). -/
def Ready (s : State) : Prop := s.cfg.wellFormed = true ∧ s.launched = true

/-- A host that does nothing for `n` cycles: no `rst`, no access. -/
def silent (n : Nat) (s : State) : Prop := ∀ h ∈ s.host.take n, h = { rst := false, access := .noAccess }

end Sys2Proof
end

