-- ==== Sys2Proof/Certificates/Slice0/Obligations.lean ====
section
/-! DEFINITION. The statements for the provers, each from numbered rules of spec/. -/

open Sys2Proof Sys2Proof.Machine

/-! Encoding (30_encoding.md). -/

/-- R64: the complete map of the 256 CMD byte values. -/
def Obligations.CommandByteMap : Prop :=
  decodeByte 0x01#8 = .ok .owReset ∧ decodeByte 0x02#8 = .ok (.owWriteBit 0#1) ∧
  decodeByte 0x03#8 = .ok .owReadBit ∧ decodeByte 0x04#8 = .ok .owWriteByte ∧
  decodeByte 0x05#8 = .ok .owReadByte ∧ decodeByte 0x0A#8 = .ok (.owWriteBit 1#1) ∧
  ∀ v : Byte, v ≠ 0x01#8 → v ≠ 0x02#8 → v ≠ 0x03#8 → v ≠ 0x04#8 → v ≠ 0x05#8 → v ≠ 0x0A#8 →
    ∃ e, decodeByte v = .error e

/-- R62: a byte decodes exactly when `legal(v)` holds, and then to the command with `OP = v[2:0]` and `B = v[3]`. -/
def Obligations.DecodeFollowsLegalBytes : Prop :=
  ∀ v : Byte,
    ((v.extractLsb' 4 4 = 0#4 ∧
        (v.extractLsb' 0 3 = 2#3 ∨
          (v.getLsbD 3 = false ∧ (v.extractLsb' 0 3 = 1#3 ∨ v.extractLsb' 0 3 = 3#3 ∨
            v.extractLsb' 0 3 = 4#3 ∨ v.extractLsb' 0 3 = 5#3)))) ↔ ∃ i, decodeByte v = .ok i) ∧
    ∀ i, decodeByte v = .ok i → i.opCode = v.extractLsb' 0 3 ∧ i.bOperand = v.extractLsb' 3 1

/-- Decode and encode agree, with the operand at both its values, and no other byte decodes to the command. -/
def Obligations.DecodeInvertsEncode : Prop :=
  ∀ i : Instr, decodeByte (encode i) = .ok i ∧ ∀ v : Byte, decodeByte v = .ok i → v = encode i

/-! The step (40_bus_driver.md R74). -/

/-- When the host's access is a write of a byte to CMD and the byte decodes to `i`, the step is `exec i`, and then the
environment moves on to its next cycle (the scripts of log entries 3 and 4 are the model's). -/
def Obligations.StepRunsTheDecodedCommand : Prop :=
  ∀ (s : State) (bus : Bus) (i : Instr), Ready s → s.rstNow = false → busOf s.cfg s.hostNow.access = .ok bus →
    bus.sel = true → bus.we = true → bus.addr = 0#3 → decodeByte bus.wdata = .ok i →
    step s = thenEndCycle (exec i s) ∧
    (∀ t, exec i s = .next t →
      step s = .next { t with host := t.host.tail, line := t.line.tail, cycle := t.cycle + 1 })

/-- The word the host places for a fetch is the command the very next step runs (the model's choice, log entry 10: the
machine fetches nothing). -/
def Obligations.FetchWordIsRunNext : Prop :=
  ∀ (s : State) (w : Nat) (i : Instr), Ready s → decodeTableWord 8 w = some i →
    step (s.withFetchWord 8 w) = thenEndCycle (exec i (s.withFetchWord 8 w))

/-- Every edge, of every kind, leaves the configuration as it is (R7: parameters of synthesis time), counts the cycle,
and hands the environment's next cycle over (the model's own fields, log entries 1, 3, 4 and 8). -/
def Obligations.EveryEdgeKeepsTheConfiguration : Prop :=
  ∀ s t : State, step s = .next t →
    t.cfg = s.cfg ∧ t.host = s.host.tail ∧ t.line = s.line.tail ∧ t.cycle = s.cycle + 1 ∧ t.launched = true

/-! Acceptance (40_bus_driver.md R70): the accepting edge of each command, every field of the state said. -/

/-- R70, R75: OW_RESET accepted. Nothing but `op`, `bitidx`, DONE, `phase`, `cnt` and the synchronizer's shift. -/
def Obligations.OwResetIsAccepted : Prop :=
  ∀ s : State, s.phase = .idle →
    exec .owReset s = .next { s with
      sync := (s.owI :: s.sync).dropLast, op := 1#3, bitidx := 0#3, done := false,
      phase := .rstLow, cnt := s.cfg.tRstl * s.cfg.cyclesPerUs - 1 }

/-- R70, R80: OW_WRITE_BIT accepted, for either bit: `txbuf` is the bit, zero-extended. -/
def Obligations.OwWriteBitIsAccepted : Prop :=
  ∀ (s : State) (b : BitVec 1), s.phase = .idle →
    exec (.owWriteBit b) s = .next { s with
      sync := (s.owI :: s.sync).dropLast, op := 2#3, bitidx := 0#3, done := false,
      txbuf := if b = 1#1 then 0x01#8 else 0x00#8,
      phase := .init, cnt := s.cfg.tInit * s.cfg.cyclesPerUs - 1 }

/-- R70, R83: OW_READ_BIT accepted: `rxbuf` is cleared. -/
def Obligations.OwReadBitIsAccepted : Prop :=
  ∀ s : State, s.phase = .idle →
    exec .owReadBit s = .next { s with
      sync := (s.owI :: s.sync).dropLast, op := 3#3, bitidx := 0#3, done := false, rxbuf := 0x00#8,
      phase := .init, cnt := s.cfg.tInit * s.cfg.cyclesPerUs - 1 }

/-- R70, R92, R93: OW_WRITE_BYTE accepted: `txbuf` takes the TXDATA of the cycle of the CMD write. -/
def Obligations.OwWriteByteIsAccepted : Prop :=
  ∀ s : State, s.phase = .idle →
    exec .owWriteByte s = .next { s with
      sync := (s.owI :: s.sync).dropLast, op := 4#3, bitidx := 0#3, done := false, txbuf := s.txdata,
      phase := .init, cnt := s.cfg.tInit * s.cfg.cyclesPerUs - 1 }

/-- R70, R95: OW_READ_BYTE accepted: `rxbuf` is cleared. -/
def Obligations.OwReadByteIsAccepted : Prop :=
  ∀ s : State, s.phase = .idle →
    exec .owReadByte s = .next { s with
      sync := (s.owI :: s.sync).dropLast, op := 5#3, bitidx := 0#3, done := false, rxbuf := 0x00#8,
      phase := .init, cnt := s.cfg.tInit * s.cfg.cyclesPerUs - 1 }

/-! Rejection (60_exceptions.md R109 to R116). -/

/-- R110: a rejected CMD write. BUSY is checked before ILLEGAL, the first rejection is kept, and everything else in the
state is as if the write had not been made (compared with the same cycle without an access). -/
def Obligations.RejectionIsPrecise : Prop :=
  ∀ s t u : State, Ready s → s.rstNow = false → rejectsNow s = true →
    step s = .next t → step (s.withAccess .noAccess) = .next u →
    t = if u.cmderr = true then u
        else { u with cmderr := true, errcode := if s.phase ≠ .idle then 2#2 else 1#2 }

/-- R110, R114: every command is turned away with BUSY while one is in progress; the rest of the edge is that of a cycle
without an access. -/
def Obligations.BusyControllerRejectsEveryCommand : Prop :=
  ∀ (i : Instr) (s u : State), s.phase ≠ .idle → quietEdge s = .next u →
    exec i s = .next (if u.cmderr = true then u else { u with cmderr := true, errcode := 2#2 })

/-- R63: which 250 bytes are illegal; one written to CMD while the controller is idle is rejected with ILLEGAL and has no
other effect: no phase change, no line activity, DONE and every result register unchanged. -/
def Obligations.IllegalByteOnlyRecordsTheError : Prop :=
  (∀ v : Byte, legalByte v = false ↔
    ((v.extractLsb' 0 3 = 0#3 ∨ v.extractLsb' 0 3 = 6#3 ∨ v.extractLsb' 0 3 = 7#3) ∨
      (v.getLsbD 3 = true ∧ v.extractLsb' 0 3 ≠ 2#3) ∨ v.extractLsb' 4 4 ≠ 0#4)) ∧
  ((List.range 256).filter fun n => !legalByte (BitVec.ofNat 8 n)).length = 250 ∧
  ∀ (s : State) (bus : Bus), Ready s → s.rstNow = false → s.phase = .idle → busOf s.cfg s.hostNow.access = .ok bus →
    bus.sel = true → bus.we = true → bus.addr = 0#3 → legalByte bus.wdata = false →
    ∃ t, step s = .next t ∧ t.cmderr = true ∧ t.errcode = (if s.cmderr = true then s.errcode else 1#2) ∧
      t.phase = s.phase ∧ t.cnt = s.cnt ∧ t.op = s.op ∧ t.txbuf = s.txbuf ∧ t.rxbuf = s.rxbuf ∧
      t.bitidx = s.bitidx ∧ t.presS = s.presS ∧ t.done = s.done ∧ t.present = s.present ∧ t.rxdata = s.rxdata ∧
      t.txdata = s.txdata ∧ t.irqEn = s.irqEn ∧ t.drives = false

/-- R114 item 4, R133: a CMD write in the last cycle of a command is rejected with BUSY while the command completes. -/
def Obligations.CommandAtCompletionEdgeIsRejected : Prop :=
  ∀ s t : State, s.rstNow = false → s.completionEdge = true → writesReg s 0#3 = true → step s = .next t →
    s.busy = true ∧ t.phase = .idle ∧ t.done = true ∧ t.cmderr = true ∧ (s.cmderr = false → t.errcode = 2#2)

/-! The registers, one by one: what every edge makes of each (10_state.md R23 to R29, R36, R38; 40_bus_driver.md R70 to
R73). These are at once the frames: no other edge changes the register. -/

/-- R23: the five cases of DONE in their order of priority, and cases 2 and 3 never on the same edge. -/
def Obligations.DoneFollowsItsPriorities : Prop :=
  ∀ s t : State, step s = .next t →
    (t.done =
      if s.rstNow then false
      else if s.completionEdge then true
      else if acceptsNow s then false
      else if writesReg s 1#3 && (port s).wdata.getLsbD 1 then false
      else s.done) ∧
    ¬(s.completionEdge = true ∧ acceptsNow s = true)

/-- R25: the four cases of CMDERR and ERRCODE, cases 2 and 3 never on the same edge; ERRCODE 0b11 is never produced, and
ERRCODE is nonzero if and only if CMDERR = 1. -/
def Obligations.CmderrAndErrcodeKeepTheFirstError : Prop :=
  ∀ s t : State, step s = .next t →
    (t.cmderr =
      if s.rstNow then false
      else if rejectsNow s then true
      else if writesReg s 1#3 && (port s).wdata.getLsbD 3 then false
      else s.cmderr) ∧
    (t.errcode =
      if s.rstNow then 0#2
      else if rejectsNow s then (if s.cmderr then s.errcode else if s.phase ≠ .idle then 2#2 else 1#2)
      else if writesReg s 1#3 && (port s).wdata.getLsbD 3 then 0#2
      else s.errcode) ∧
    ¬(rejectsNow s = true ∧ writesReg s 1#3 = true) ∧ (s.errcode ≠ 3#2 → t.errcode ≠ 3#2) ∧
    ((s.errcode ≠ 0#2 ↔ s.cmderr = true) → (t.errcode ≠ 0#2 ↔ t.cmderr = true))

/-- R24: PRESENT changes at reset and at the completion edge of an OW_RESET only. -/
def Obligations.PresentChangesOnlyAtOwResetCompletion : Prop :=
  ∀ s t : State, step s = .next t →
    t.present =
      if s.rstNow then false
      else if s.completionEdge && decide (s.op = 1#3) then s.presS
      else s.present

/-- R28: RXDATA changes at reset and at the completion edge of a read command only. -/
def Obligations.RxdataChangesOnlyAtReadCompletion : Prop :=
  ∀ s t : State, step s = .next t →
    t.rxdata =
      if s.rstNow then 0x00#8
      else if s.completionEdge && decide (s.op = 3#3 ∨ s.op = 5#3) then s.rxbuf
      else s.rxdata

/-- R27: TXDATA is written by the host alone, whatever the phase. -/
def Obligations.TxdataIsWrittenByTheHostAlone : Prop :=
  ∀ s t : State, step s = .next t →
    (t.txdata = if s.rstNow then 0x00#8 else if writesReg s 2#3 then (port s).wdata else s.txdata) ∧
    t.regRead 2#3 = t.txdata

/-- R29: CTRL bit 0 is IRQ_EN, written by the host alone; bits 7:1 read 0 and writes to them are ignored. -/
def Obligations.CtrlHoldsTheInterruptEnable : Prop :=
  ∀ s t : State, step s = .next t →
    (t.irqEn = if s.rstNow then false else if writesReg s 4#3 then (port s).wdata.getLsbD 0 else s.irqEn) ∧
    t.regRead 4#3 = if t.irqEn then 0x01#8 else 0x00#8

/-- R36, R70: `op` takes the operation code of an accepted command and keeps it. -/
def Obligations.OpHoldsTheAcceptedCode : Prop :=
  ∀ s t : State, step s = .next t →
    t.op = if s.rstNow then 0#3 else if acceptsNow s then (port s).wdata.extractLsb' 0 3 else s.op

/-- R70, R32: `txbuf` is loaded at the acceptance of a write command only: the bit of the command byte, or TXDATA. -/
def Obligations.TxbufIsLoadedAtAcceptanceOnly : Prop :=
  ∀ s t : State, step s = .next t →
    t.txbuf =
      if s.rstNow then 0x00#8
      else if acceptsNow s && decide ((port s).wdata.extractLsb' 0 3 = 2#3) then
        (if (port s).wdata.getLsbD 3 then 0x01#8 else 0x00#8)
      else if acceptsNow s && decide ((port s).wdata.extractLsb' 0 3 = 4#3) then s.txdata
      else s.txbuf

/-- R70, R84, R96: `rxbuf` is cleared at the acceptance of a read command, and at the end of RWAIT its bit `bitidx`, and
no other bit, takes the sample. -/
def Obligations.RxbufTakesOneBitPerSlot : Prop :=
  ∀ s t : State, step s = .next t → s.rstNow = false →
    (acceptsNow s = true →
      t.rxbuf = if (port s).wdata.extractLsb' 0 3 = 3#3 ∨ (port s).wdata.extractLsb' 0 3 = 5#3 then 0x00#8 else s.rxbuf) ∧
    (s.phase = .rwait → s.cnt = 0 →
      ∀ k < 8, t.rxbuf.getLsbD k = if k = s.bitidx.toNat then s.lineSync else s.rxbuf.getLsbD k) ∧
    (acceptsNow s = false → ¬(s.phase = .rwait ∧ s.cnt = 0) → t.rxbuf = s.rxbuf)

/-- R76, R32: `pres_s` changes at reset and at the edge that ends RST_WAIT, to 1 exactly if the sample is 0. -/
def Obligations.PresenceIsSampledOnce : Prop :=
  ∀ s t : State, step s = .next t →
    t.presS =
      if s.rstNow then false
      else if decide (s.phase = .rstWait) && decide (s.cnt = 0) then !s.lineSync
      else s.presS

/-- R38: the synchronizer shifts at every edge with `rst = 0` and is forced to 1s at every edge with `rst = 1`;
`line_sync` is its last stage, or `ow_i` where it has none. -/
def Obligations.SynchronizerShifts : Prop :=
  (∀ s t : State, step s = .next t → s.rstNow = false →
    t.sync.length = s.sync.length ∧ (∀ h : 0 < t.sync.length, t.sync[0]'h = s.owI) ∧
    (∀ (k : Nat) (hk : k + 1 < t.sync.length) (hk' : k < s.sync.length), t.sync[k + 1]'hk = s.sync[k]'hk')) ∧
  (∀ s t : State, step s = .next t → s.rstNow = true → t.sync = List.replicate s.cfg.syncStages true) ∧
  (∀ s : State, s.sync = [] → s.lineSync = s.owI) ∧
  (∀ (s : State) (k : Nat) (h : k < s.sync.length), k + 1 = s.sync.length → s.lineSync = s.sync[k]'h)

/-- R71: while a command is in progress the counter counts down, and at 0 the phase ends. -/
def Obligations.PhaseCountsDown : Prop :=
  ∀ s t : State, step s = .next t → s.rstNow = false → s.phase ≠ .idle → 0 < s.cnt →
    t.phase = s.phase ∧ t.cnt = s.cnt - 1 ∧ t.bitidx = s.bitidx

/-- R72, R71: the complete next-phase function, the exit actions and the counter's load, at the edge that ends a phase.
INIT is left out for an `op` that is no bit or byte command: R72 gives it no next phase. -/
def Obligations.PhaseEndsAsTheTransitionTableSays : Prop :=
  ∀ s t : State, step s = .next t → s.rstNow = false → s.phase ≠ .idle → s.cnt = 0 →
    match s.phase with
    | .idle => False
    | .rstLow => t.phase = .rstWait ∧ t.cnt = s.cfg.tMsp * s.cfg.cyclesPerUs - 1 ∧ t.bitidx = s.bitidx
    | .rstWait => t.phase = .rstRem ∧ t.cnt = s.cfg.tRstrem * s.cfg.cyclesPerUs - 1 ∧ t.presS = !s.lineSync ∧
      t.bitidx = s.bitidx
    | .rstRem => t.phase = .idle ∧ t.cnt = 0 ∧ t.done = true ∧ t.bitidx = s.bitidx
    | .init =>
      ((s.op = 2#3 ∨ s.op = 4#3) →
        t.phase = .wbody ∧ t.cnt = (s.cfg.tSlot - s.cfg.tInit) * s.cfg.cyclesPerUs - 1 ∧ t.bitidx = s.bitidx) ∧
      ((s.op = 3#3 ∨ s.op = 5#3) →
        t.phase = .rwait ∧ t.cnt = s.cfg.tRds * s.cfg.cyclesPerUs - 1 ∧ t.bitidx = s.bitidx)
    | .wbody => t.phase = .recov ∧ t.cnt = s.cfg.tRec * s.cfg.cyclesPerUs - 1 ∧ t.bitidx = s.bitidx
    | .rwait =>
      t.phase = .rpad ∧ t.cnt = s.cfg.tRpad * s.cfg.cyclesPerUs - 1 ∧
        t.rxbuf.getLsbD s.bitidx.toNat = s.lineSync ∧ t.bitidx = s.bitidx
    | .rpad => t.phase = .recov ∧ t.cnt = s.cfg.tRec * s.cfg.cyclesPerUs - 1 ∧ t.bitidx = s.bitidx
    | .recov =>
      if (s.op = 4#3 ∨ s.op = 5#3) ∧ s.bitidx.toNat < 7 then
        t.phase = .init ∧ t.cnt = s.cfg.tInit * s.cfg.cyclesPerUs - 1 ∧
          t.bitidx.toNat = s.bitidx.toNat + 1 ∧ t.done = (s.done && !(writesReg s 1#3 && (port s).wdata.getLsbD 1))
      else t.phase = .idle ∧ t.cnt = 0 ∧ t.done = true ∧ t.bitidx = s.bitidx

/-- R72, R22: IDLE is left only by acceptance, and a command in progress is never replaced by another. -/
def Obligations.IdleIsLeftOnlyByAcceptance : Prop :=
  ∀ s t : State, step s = .next t →
    (s.phase = .idle → (t.phase ≠ .idle ↔ (s.rstNow = false ∧ acceptsNow s = true))) ∧
    (s.phase = .idle → t.phase = .idle → s.cnt = 0 → t.cnt = 0) ∧
    (s.phase ≠ .idle → t.phase ≠ .idle → t.op = s.op ∧ t.txbuf = s.txbuf)

/-! The line (10_state.md R17, R18, R33, R34; 40_bus_driver.md R69). -/

/-- R34: `ow_oe` is the drive table of R33 while `rst = 0`, 0 while `rst = 1` whatever the state, and 0 in IDLE; the line
is 0 while the controller drives it (R18). -/
def Obligations.LineDriveTable : Prop :=
  ∀ s : State,
    (s.rstNow = true → s.owOe = false) ∧ (s.phase = .idle → s.owOe = false) ∧
    (s.rstNow = false →
      (s.owOe = true ↔ (s.phase = .rstLow ∨ s.phase = .init ∨
        (s.phase = .wbody ∧ s.txbuf.getLsbD s.bitidx.toNat = false)))) ∧
    (s.owOe = true → s.owI = false)

/-- R69: a sample sees the pad SYNC_STAGES cycles before. -/
def Obligations.SampleSeesThePadSyncStagesEarlier : Prop :=
  ∀ s t : State, undisturbed s.sync.length s → runs s.sync.length s = .next t → t.lineSync = s.owI

/-! The host port (20_memory.md). -/

/-- R50: `bus_rdata`, a function of the cycle's inputs and state. -/
def Obligations.ReadsReturnTheRegisters : Prop :=
  ∀ (s : State) (bus : Bus),
    (busOf s.cfg s.hostNow.access = .ok bus → s.busRdata = s.rdata bus) ∧
    (bus.sel = true → bus.we = false → bus.addr = 0#3 → s.rdata bus = 0x00#8) ∧
    (bus.sel = true → bus.we = false → bus.addr = 1#3 →
      (s.rdata bus).getLsbD 7 = false ∧ (s.rdata bus).getLsbD 6 = s.lineSync ∧
      (s.rdata bus).extractLsb' 4 2 = s.errcode ∧ (s.rdata bus).getLsbD 3 = s.cmderr ∧
      (s.rdata bus).getLsbD 2 = s.present ∧ (s.rdata bus).getLsbD 1 = s.done ∧
      ((s.rdata bus).getLsbD 0 = true ↔ s.phase ≠ .idle)) ∧
    (bus.sel = true → bus.we = false → bus.addr = 2#3 → s.rdata bus = s.txdata) ∧
    (bus.sel = true → bus.we = false → bus.addr = 3#3 → s.rdata bus = s.rxdata) ∧
    (bus.sel = true → bus.we = false → bus.addr = 4#3 → s.rdata bus = if s.irqEn then 0x01#8 else 0x00#8) ∧
    (bus.sel = true → bus.we = false → 5 ≤ bus.addr.toNat → s.rdata bus = 0x00#8) ∧
    (bus.sel = false ∨ bus.we = true → s.rdata bus = 0x00#8)

/-- R47: the register `a` of the block is at the host's address `BASE + a`, for a read and for a write. -/
def Obligations.RegistersStandAtBasePlusAddress : Prop :=
  ∀ (c : Config) (a : RegAddr) (v : Byte),
    (∃ bus, busOf c (.memRead (c.base + a.toNat)) = .ok bus ∧ bus.sel = true ∧ bus.we = false ∧ bus.addr = a) ∧
    busOf c (.memWrite (c.base + a.toNat) v) = .ok { sel := true, we := true, addr := a, wdata := v }

/-- R46, R30: a read of any address changes no state, and neither does a write to address 3, 5, 6 or 7: the edge is that
of a cycle without an access. -/
def Obligations.ReadsAndIgnoredWritesHaveNoEffect : Prop :=
  ∀ (s : State) (a : RegAddr) (v : Byte),
    step (s.withAccess (.memRead (s.cfg.base + a.toNat))) = step (s.withAccess .noAccess) ∧
    ((a = 3#3 ∨ a = 5#3 ∨ a = 6#3 ∨ a = 7#3) →
      step (s.withAccess (.memWrite (s.cfg.base + a.toNat) v)) = step (s.withAccess .noAccess))

/-- R21: a write to STATUS acts on DONE, CMDERR and ERRCODE only, through its bits 1 and 3 only; writing 0 to a W1C bit
leaves it unchanged. -/
def Obligations.StatusWriteClearsByOnes : Prop :=
  ∀ (s : State) (v : Byte) (u : State), Ready s → step (s.withAccess .noAccess) = .next u →
    step (s.withAccess (.memWrite (s.cfg.base + 1) v)) = .next { u with
      done := if v.getLsbD 1 = true ∧ s.completionEdge = false then false else u.done
      cmderr := if v.getLsbD 3 = true then false else u.cmderr
      errcode := if v.getLsbD 3 = true then 0#2 else u.errcode }

/-- R27, R29, R46: a write to TXDATA or CTRL acts on that register only, whatever the phase. -/
def Obligations.TxdataAndCtrlWritesTouchTheirRegisterOnly : Prop :=
  ∀ (s : State) (v : Byte) (u : State), Ready s → step (s.withAccess .noAccess) = .next u →
    step (s.withAccess (.memWrite (s.cfg.base + 2) v)) = .next { u with txdata := v } ∧
    step (s.withAccess (.memWrite (s.cfg.base + 4) v)) = .next { u with irqEn := v.getLsbD 0 }

/-- R113: the interrupt output, and that an edge with `rst = 1` leaves it 0. -/
def Obligations.InterruptIsEnabledDoneOrError : Prop :=
  (∀ s : State, s.irq = true ↔ (s.irqEn = true ∧ (s.done = true ∨ s.cmderr = true))) ∧
  (∀ s t : State, s.rstNow = true → step s = .next t → t.irq = false)

/-! Reset, launch and refusals (70_reset_and_hazards.md; 00_scope.md R8). -/

/-- R123, R40: an edge with `rst = 1`, from any state and whatever the host's access. That a wide access counts among
these is the model's reading (log entry 12, DEDUCED), and `launched` is the model's own field (log entry 8, DEDUCED). -/
def Obligations.ResetEdgeForcesTheResetState : Prop :=
  ∀ s : State, s.cfg.wellFormed = true → s.rstNow = true →
    s.owOe = false ∧
    ∃ t, step s = .next t ∧ t.phase = .idle ∧ t.cnt = 0 ∧ t.op = 0#3 ∧ t.txbuf = 0x00#8 ∧ t.rxbuf = 0x00#8 ∧
      t.bitidx = 0#3 ∧ t.presS = false ∧ t.sync = List.replicate s.cfg.syncStages true ∧ t.done = false ∧
      t.present = false ∧ t.cmderr = false ∧ t.errcode = 0#2 ∧ t.txdata = 0x00#8 ∧ t.rxdata = 0x00#8 ∧
      t.irqEn = false ∧ t.launched = true ∧ t.drives = false

/-- R129: what the registers read after a reset edge, in every configuration. -/
def Obligations.ResetStateReads : Prop :=
  ∀ s t : State, s.rstNow = true → step s = .next t →
    (1 ≤ s.cfg.syncStages → t.regRead 1#3 = 0x40#8) ∧
    (s.cfg.syncStages = 0 → t.regRead 1#3 = if t.owI then 0x40#8 else 0x00#8) ∧
    t.regRead 2#3 = 0x00#8 ∧ t.regRead 3#3 = 0x00#8 ∧ t.regRead 4#3 = 0x00#8 ∧ t.irq = false ∧ t.owOe = false

/-- R8, R125, R44: the three refusals, each exactly where the spec has a model refuse: another configuration; a run
from before the first reset edge; an access wider than a byte in the block's window (how these are told apart is the
model's, log entries 8, 9 and 12). No step answers that a command is not modelled. -/
def Obligations.RefusalsAreTheSpecsOwn : Prop :=
  ∀ s : State,
    (step s = .refused .badConfig ↔ s.cfg.wellFormed = false) ∧
    (step s = .refused .beforeReset ↔ (s.cfg.wellFormed = true ∧ s.rstNow = false ∧ s.launched = false)) ∧
    (step s = .refused .wideAccess ↔
      (s.cfg.wellFormed = true ∧ s.rstNow = false ∧ s.launched = true ∧
        ∃ a n, s.hostNow.access = .wide a n ∧ a < s.cfg.base + 8 ∧ s.cfg.base < a + n)) ∧
    ∀ m, step s ≠ .refused (.notModelled m)

/-- R8: the structural constraints are exactly the well-formedness of a configuration, every other one is refused, and
CNT_W is 16 with the defaults at 125 cycles in a microsecond. -/
def Obligations.WellFormedConfigurationsMeetTheConstraints : Prop :=
  (∀ s : State, s.cfg.wellFormed = false → step s = .refused .badConfig) ∧
  (∀ b : Nat, (Config.standard 125 b).cntW = 16) ∧
  ∀ c : Config, c.wellFormed = true ↔
    (1 ≤ c.tRstl ∧ 1 ≤ c.tMsp ∧ 1 ≤ c.tRstrem ∧ 1 ≤ c.tInit ∧ 1 ≤ c.tSlot ∧ 1 ≤ c.tRds ∧ 1 ≤ c.tRpad ∧ 1 ≤ c.tRec) ∧
    c.tInit + 1 ≤ c.tSlot ∧ 1 ≤ c.cyclesPerUs ∧
    ∀ t ∈ [c.tRstl, c.tMsp, c.tRstrem, c.tInit, c.tSlot - c.tInit, c.tRds, c.tRpad, c.tRec],
      t * c.cyclesPerUs ≤ 2 ^ c.cntW

/-- R7, R8, R88: the defaults are legal for every CYCLES_PER_US ≥ 1, with the smallest legal CNT_W (16 bits at 125),
and give the durations of R88's table. -/
def Obligations.DefaultParametersAreLegal : Prop :=
  ∀ n b : Nat, 1 ≤ n →
    (Config.standard n b).wellFormed = true ∧
    (∀ w, { Config.standard n b with cntW := w : Config }.wellFormed = true → (Config.standard n b).cntW ≤ w) ∧
    (n = 125 → (Config.standard n b).cntW = 16) ∧
    durationCycles (Config.standard n b) .owReset = 960 * n ∧
    (∀ x, durationCycles (Config.standard n b) (.owWriteBit x) = 61 * n) ∧
    durationCycles (Config.standard n b) .owReadBit = 61 * n ∧
    durationCycles (Config.standard n b) .owWriteByte = 488 * n ∧
    durationCycles (Config.standard n b) .owReadByte = 488 * n

/-! The invariant. -/

/-- The invariant holds right after reset in every legal configuration, `State.reset` among them (its CYCLES_PER_US and
BASE are the model's choice, log entry 2). -/
def Obligations.InvariantHoldsAtReset : Prop :=
  (∀ c : Config, c.wellFormed = true → Inv (State.resetWith c)) ∧ Inv State.reset

/-- Every step keeps the invariant, from every state that has it. -/
def Obligations.EveryStepKeepsTheInvariant : Prop :=
  ∀ s t : State, Inv s → step s = .next t → Inv t

/-- R89: from every state with the invariant the machine has a next state: no step faults, and the only access it stops
on is one wider than a byte. -/
def Obligations.ControllerNeverHangs : Prop :=
  ∀ s : State, Inv s → s.launched = true → (∃ t, step s = .next t) ∨ step s = .refused .wideAccess

/-- R141: the controller's counters never wrap: `cnt` fits `CNT_W` bits and moves down by 1 or is loaded within its
width; `bitidx` is set to 0 by reset and by acceptance alone, moves up by 1 at the end of REC in the first seven slots of
a byte command alone, and is kept at every other edge (R70, R72, R91). -/
def Obligations.CountersNeverWrap : Prop :=
  ∀ s t : State, Inv s → step s = .next t →
    s.cnt < 2 ^ s.cfg.cntW ∧ t.cnt < 2 ^ t.cfg.cntW ∧
    (s.phase ≠ .idle → s.rstNow = false → t.phase = s.phase → 0 < s.cnt → t.cnt + 1 = s.cnt) ∧
    t.bitidx.toNat =
      if s.rstNow = true ∨ acceptsNow s = true then 0
      else if s.phase = .recov ∧ s.cnt = 0 ∧ (s.op = 4#3 ∨ s.op = 5#3) ∧ s.bitidx.toNat < 7 then s.bitidx.toNat + 1
      else s.bitidx.toNat

/-! Whole commands (40_bus_driver.md R73 to R90; 41_byte_framer.md). In each, the host may make any accesses meanwhile,
short of `rst`. -/

/-- R88, R89, R90: the transaction view of each command equals the clock edges. From every idle state the command is
accepted, and after exactly its duration it has completed, with the waveform and the results the transaction gives for
the levels sampled at R88's sample edges. -/
def Obligations.TransactionRefinesTheClockEdges : Prop :=
  ∀ (i : Instr) (s : State), Ready s → s.phase = .idle → undisturbed (durationCycles s.cfg i) s.endCycle →
    ∃ (t c : State) (samples : List Bool),
      exec i s = .next t ∧ runs (durationCycles s.cfg i) t.endCycle = .next c ∧
      (sampleEdges s.cfg i).map (fun e => sampleAtEdge e t.endCycle) = samples.map some ∧
      driveTrace (durationCycles s.cfg i) t.endCycle = expand (transaction s.cfg i s.txdata samples).waveform ∧
      c.phase = .idle ∧ c.done = true ∧
      c.present = (transaction s.cfg i s.txdata samples).present.getD s.present ∧
      c.rxdata = (transaction s.cfg i s.txdata samples).rxdata.getD s.rxdata

/-- R22, R23, R24, R28: in every cycle from acceptance to the one before completion, BUSY is 1, DONE is 0, and PRESENT
and RXDATA still show the previous results. -/
def Obligations.BusyAndOldResultsUntilCompletion : Prop :=
  ∀ (i : Instr) (s t : State) (n : Nat), Ready s → s.phase = .idle →
    undisturbed (durationCycles s.cfg i) s.endCycle → exec i s = .next t → n < durationCycles s.cfg i →
    ∃ m, runs n t.endCycle = .next m ∧ m.busy = true ∧ m.done = false ∧ m.present = s.present ∧ m.rxdata = s.rxdata

/-- R75 to R77: OW_RESET completes with PRESENT = 1 exactly if the one presence sample is low; measured on the pad, the
sample is the level SYNC_STAGES cycles before the sampling cycle. RXDATA is left alone. -/
def Obligations.OwResetCommitsThePresenceSample : Prop :=
  ∀ s : State, Ready s → s.phase = .idle → undisturbed (durationCycles s.cfg .owReset) s.endCycle →
    ∃ (t c : State) (b : Bool),
      exec .owReset s = .next t ∧ runs (s.cfg.cycles (s.cfg.tRstl + s.cfg.tMsp + s.cfg.tRstrem)) t.endCycle = .next c ∧
      sampleAtEdge (s.cfg.cycles (s.cfg.tRstl + s.cfg.tMsp)) t.endCycle = some b ∧
      c.present = !b ∧ c.rxdata = s.rxdata ∧ c.phase = .idle ∧ c.done = true ∧
      ∀ (n : Nat) (m : State), n + s.sync.length + 1 = s.cfg.cycles (s.cfg.tRstl + s.cfg.tMsp) →
        runs n t.endCycle = .next m → c.present = !m.owI

/-- R83 to R85: OW_READ_BIT completes with RXDATA = zext_8 of the one bit it sampled; PRESENT is left alone. -/
def Obligations.OwReadBitCommitsTheSampledBit : Prop :=
  ∀ s : State, Ready s → s.phase = .idle → undisturbed (durationCycles s.cfg .owReadBit) s.endCycle →
    ∃ (t c : State) (b : Bool),
      exec .owReadBit s = .next t ∧
      runs (s.cfg.cycles (s.cfg.tInit + s.cfg.tRds + s.cfg.tRpad + s.cfg.tRec)) t.endCycle = .next c ∧
      sampleAtEdge (s.cfg.cycles (s.cfg.tInit + s.cfg.tRds)) t.endCycle = some b ∧
      c.rxdata = (if b then 0x01#8 else 0x00#8) ∧ c.present = s.present ∧ c.phase = .idle ∧ c.done = true

/-- R95 to R97: OW_READ_BYTE completes with bit `k` of RXDATA the bit sampled in slot `k`; PRESENT is left alone. -/
def Obligations.OwReadByteCommitsTheSampledBits : Prop :=
  ∀ s : State, Ready s → s.phase = .idle → undisturbed (durationCycles s.cfg .owReadByte) s.endCycle →
    ∃ t c : State,
      exec .owReadByte s = .next t ∧ runs (8 * readSlotCycles s.cfg) t.endCycle = .next c ∧
      (∀ k < 8, sampleAtEdge (k * readSlotCycles s.cfg + s.cfg.cycles (s.cfg.tInit + s.cfg.tRds)) t.endCycle =
        some (c.rxdata.getLsbD k)) ∧
      c.present = s.present ∧ c.phase = .idle ∧ c.done = true

/-- R81, R80: the write slot of either bit. A 0 holds the line low for N(T_SLOT) cycles, a 1 for N(T_INIT) cycles, both
in a slot of N(T_SLOT + T_REC) cycles; PRESENT and RXDATA are left alone. -/
def Obligations.OwWriteBitDrivesItsSlot : Prop :=
  ∀ (s : State) (b : BitVec 1), Ready s → s.phase = .idle →
    undisturbed (durationCycles s.cfg (.owWriteBit b)) s.endCycle →
    ∃ t c : State,
      exec (.owWriteBit b) s = .next t ∧ runs (s.cfg.cycles (s.cfg.tSlot + s.cfg.tRec)) t.endCycle = .next c ∧
      driveTrace (s.cfg.cycles (s.cfg.tSlot + s.cfg.tRec)) t.endCycle =
        (if b = 0#1 then List.replicate (s.cfg.cycles s.cfg.tSlot) true ++ List.replicate (s.cfg.cycles s.cfg.tRec) false
         else List.replicate (s.cfg.cycles s.cfg.tInit) true ++
           List.replicate (s.cfg.cycles (s.cfg.tSlot - s.cfg.tInit) + s.cfg.cycles s.cfg.tRec) false) ∧
      c.present = s.present ∧ c.rxdata = s.rxdata ∧ c.phase = .idle ∧ c.done = true

/-- R92, R94, R98 law 1: slot `k` of OW_WRITE_BYTE is the write slot of bit `k` of the TXDATA of the CMD write's cycle,
whatever the host writes to TXDATA meanwhile (R93); PRESENT and RXDATA are left alone. -/
def Obligations.OwWriteByteSendsLsbFirst : Prop :=
  ∀ s : State, Ready s → s.phase = .idle → undisturbed (durationCycles s.cfg .owWriteByte) s.endCycle →
    ∃ t c : State,
      exec .owWriteByte s = .next t ∧ runs (8 * writeSlotCycles s.cfg) t.endCycle = .next c ∧
      (∀ k < 8, ((driveTrace (8 * writeSlotCycles s.cfg) t.endCycle).drop (k * writeSlotCycles s.cfg)).take
          (writeSlotCycles s.cfg) = expand (writeSlot s.cfg (s.txdata.getLsbD k))) ∧
      c.present = s.present ∧ c.rxdata = s.rxdata ∧ c.phase = .idle ∧ c.done = true

/-- R98 law 3: under a loopback line, which presents at the sample of read slot `k` the level of write slot `k` of the
OW_WRITE_BYTE just completed (after its initiation pulse), OW_READ_BYTE gives the byte back. -/
def Obligations.LoopbackReturnsTheByte : Prop :=
  ∀ s : State, Ready s → s.phase = .idle →
    undisturbed (durationCycles s.cfg .owWriteByte + 1 + durationCycles s.cfg .owReadByte) s.endCycle →
    ∃ t c t' c' : State,
      exec .owWriteByte s = .next t ∧ runs (8 * writeSlotCycles s.cfg) t.endCycle = .next c ∧
      exec .owReadByte c = .next t' ∧ runs (8 * readSlotCycles s.cfg) t'.endCycle = .next c' ∧
      ((∀ k < 8, ∀ oe, (driveTrace (8 * writeSlotCycles s.cfg) t.endCycle)[k * writeSlotCycles s.cfg +
            s.cfg.cycles s.cfg.tInit]? = some oe →
          sampleAtEdge (k * readSlotCycles s.cfg + s.cfg.cycles (s.cfg.tInit + s.cfg.tRds)) t'.endCycle = some (!oe)) →
        c'.rxdata = s.txdata)

/-- R79, R82, R87, R92: with no other host access, a command leaves TXDATA, IRQ_EN, CMDERR and ERRCODE alone. -/
def Obligations.CommandLeavesOtherRegistersAlone : Prop :=
  ∀ (i : Instr) (s : State), Ready s → s.phase = .idle → silent (durationCycles s.cfg i) s.endCycle →
    ∃ t c : State, exec i s = .next t ∧ runs (durationCycles s.cfg i) t.endCycle = .next c ∧
      c.txdata = s.txdata ∧ c.irqEn = s.irqEn ∧ c.cmderr = s.cmderr ∧ c.errcode = s.errcode ∧ c.op = i.opCode

/-! Isolation. -/

/-- R56, R89, R135: while a command is in progress, nothing the host does short of `rst` can be told from its part of the
state, the line or the results: two such states that differ in the host's access alone stay so. -/
def Obligations.HostCannotDisturbACommand : Prop :=
  ∀ a b a' b' : State, commandView a = commandView b → a.line = b.line → a.cycle = b.cycle →
    a.phase ≠ .idle → a.done = false → a.rstNow = false → b.rstNow = false →
    step a = .next a' → step b = .next b' →
    commandView a' = commandView b' ∧ a'.line = b'.line ∧ a'.cycle = b'.cycle ∧ a.owOe = b.owOe

/-- R142: the sequence of phases, its timing and the waveform do not depend on any sampled level: two states of a command
in progress that differ in what the line showed stay so. -/
def Obligations.LineCannotChangeThePacing : Prop :=
  ∀ a b a' b' : State, pacing a = pacing b → a.phase ≠ .idle → a.rstNow = false → b.rstNow = false →
    step a = .next a' → step b = .next b' → pacing a' = pacing b' ∧ a.owOe = b.owOe

/-! Host programs (45_host_sequences.md). -/

/-- R106: the temperature decode, and R102 step 9: a session's `t` is the decode of the two bytes it read last, the LSB
first (a line of its own without an access is the model's choice, log entry 14). -/
def Obligations.TemperatureDecode : Prop :=
  ∀ lsb msb : Byte,
    rawTemperature lsb msb =
      (if 128 ≤ msb.toNat then ((msb.toNat * 256 + lsb.toNat : Nat) : Int) - 65536
       else ((msb.toNat * 256 + lsb.toNat : Nat) : Int)) ∧
    decodeTemperature lsb msb * 16 = (rawTemperature lsb msb : Rat) ∧
    ∀ (y : System) (p : List HostOp) (before : List Byte), Ready y.ctl → Inv y.ctl → y.halted = false →
      y.prog = .decode :: p → y.reads = before ++ [lsb, msb] →
      ∃ z, y.step = some z ∧ z.temperature = some (decodeTemperature lsb msb) ∧ z.prog = p ∧ z.loop = y.loop ∧
        z.reads = y.reads ∧ z.outputs = y.outputs ∧ z.halted = false

/-- R100: WAIT_IDLE repeats its STATUS read exactly while BUSY reads 1, and the read changes nothing (one line of a host
program in a cycle is the model's choice, log entry 14). -/
def Obligations.WaitIdleEndsWhenBusyFalls : Prop :=
  ∀ (y : System) (p : List HostOp), Ready y.ctl → Inv y.ctl → y.halted = false → y.prog = .waitIdle :: p →
    ∃ z, y.step = some z ∧ z.reads = y.reads ∧ (z.prog = if y.ctl.phase ≠ .idle then .waitIdle :: p else p) ∧
      step (y.ctl.withAccess .noAccess) = .next z.ctl

/-- R104: the start-up check. With PRESENT read as 1 the host goes on to what follows (the polling loop, R107). With 0 it
puts out the one diagnostic and halts: for ever after there is no further output, no session's result and no access (the
cycle of the check itself is the model's choice, log entry 14). -/
def Obligations.StartupCheckHaltsOnAbsence : Prop :=
  ∀ (y : System) (p : List HostOp) (before : List Byte) (status : Byte), Ready y.ctl → Inv y.ctl → y.halted = false →
    y.prog = .haltIfAbsent :: p → y.reads = before ++ [status] →
    ∃ z, y.step = some z ∧
      (status.getLsbD 2 = true →
        z.prog = p ∧ z.loop = y.loop ∧ z.halted = false ∧ z.outputs = y.outputs ∧ z.reads = y.reads) ∧
      (status.getLsbD 2 = false →
        z.outputs = y.outputs ++ [.noDevice] ∧
        ∀ n, ∃ w, System.run n z = some w ∧ w.halted = true ∧ w.outputs = z.outputs ∧ w.reads = y.reads ∧
          w.temperature = y.temperature ∧ w.access = .noAccess)
end

