-- ==== Sys2Proof/Laws/State.lean ====
section
/-! SUPPORT. One lemma for each field of State under each update of the machine, so that no proof unfolds a record
update. -/

namespace Sys2Proof.Machine

/-! `State.shiftSync` -/

@[simp] theorem State.shiftSync_cfg (s : State) : s.shiftSync.cfg = s.cfg := rfl
@[simp] theorem State.shiftSync_phase (s : State) : s.shiftSync.phase = s.phase := rfl
@[simp] theorem State.shiftSync_cnt (s : State) : s.shiftSync.cnt = s.cnt := rfl
@[simp] theorem State.shiftSync_op (s : State) : s.shiftSync.op = s.op := rfl
@[simp] theorem State.shiftSync_txbuf (s : State) : s.shiftSync.txbuf = s.txbuf := rfl
@[simp] theorem State.shiftSync_rxbuf (s : State) : s.shiftSync.rxbuf = s.rxbuf := rfl
@[simp] theorem State.shiftSync_bitidx (s : State) : s.shiftSync.bitidx = s.bitidx := rfl
@[simp] theorem State.shiftSync_presS (s : State) : s.shiftSync.presS = s.presS := rfl
@[simp] theorem State.shiftSync_sync (s : State) : s.shiftSync.sync = (s.owI :: s.sync).dropLast := rfl
@[simp] theorem State.shiftSync_done (s : State) : s.shiftSync.done = s.done := rfl
@[simp] theorem State.shiftSync_present (s : State) : s.shiftSync.present = s.present := rfl
@[simp] theorem State.shiftSync_cmderr (s : State) : s.shiftSync.cmderr = s.cmderr := rfl
@[simp] theorem State.shiftSync_errcode (s : State) : s.shiftSync.errcode = s.errcode := rfl
@[simp] theorem State.shiftSync_txdata (s : State) : s.shiftSync.txdata = s.txdata := rfl
@[simp] theorem State.shiftSync_rxdata (s : State) : s.shiftSync.rxdata = s.rxdata := rfl
@[simp] theorem State.shiftSync_irqEn (s : State) : s.shiftSync.irqEn = s.irqEn := rfl
@[simp] theorem State.shiftSync_launched (s : State) : s.shiftSync.launched = s.launched := rfl
@[simp] theorem State.shiftSync_host (s : State) : s.shiftSync.host = s.host := rfl
@[simp] theorem State.shiftSync_line (s : State) : s.shiftSync.line = s.line := rfl
@[simp] theorem State.shiftSync_cycle (s : State) : s.shiftSync.cycle = s.cycle := rfl

/-! `State.latchTx` -/

@[simp] theorem State.latchTx_cfg (s : State) (v : Byte) : (s.latchTx v).cfg = s.cfg := rfl
@[simp] theorem State.latchTx_phase (s : State) (v : Byte) : (s.latchTx v).phase = s.phase := rfl
@[simp] theorem State.latchTx_cnt (s : State) (v : Byte) : (s.latchTx v).cnt = s.cnt := rfl
@[simp] theorem State.latchTx_op (s : State) (v : Byte) : (s.latchTx v).op = s.op := rfl
@[simp] theorem State.latchTx_txbuf (s : State) (v : Byte) : (s.latchTx v).txbuf = v := rfl
@[simp] theorem State.latchTx_rxbuf (s : State) (v : Byte) : (s.latchTx v).rxbuf = s.rxbuf := rfl
@[simp] theorem State.latchTx_bitidx (s : State) (v : Byte) : (s.latchTx v).bitidx = s.bitidx := rfl
@[simp] theorem State.latchTx_presS (s : State) (v : Byte) : (s.latchTx v).presS = s.presS := rfl
@[simp] theorem State.latchTx_sync (s : State) (v : Byte) : (s.latchTx v).sync = s.sync := rfl
@[simp] theorem State.latchTx_done (s : State) (v : Byte) : (s.latchTx v).done = s.done := rfl
@[simp] theorem State.latchTx_present (s : State) (v : Byte) : (s.latchTx v).present = s.present := rfl
@[simp] theorem State.latchTx_cmderr (s : State) (v : Byte) : (s.latchTx v).cmderr = s.cmderr := rfl
@[simp] theorem State.latchTx_errcode (s : State) (v : Byte) : (s.latchTx v).errcode = s.errcode := rfl
@[simp] theorem State.latchTx_txdata (s : State) (v : Byte) : (s.latchTx v).txdata = s.txdata := rfl
@[simp] theorem State.latchTx_rxdata (s : State) (v : Byte) : (s.latchTx v).rxdata = s.rxdata := rfl
@[simp] theorem State.latchTx_irqEn (s : State) (v : Byte) : (s.latchTx v).irqEn = s.irqEn := rfl
@[simp] theorem State.latchTx_launched (s : State) (v : Byte) : (s.latchTx v).launched = s.launched := rfl
@[simp] theorem State.latchTx_host (s : State) (v : Byte) : (s.latchTx v).host = s.host := rfl
@[simp] theorem State.latchTx_line (s : State) (v : Byte) : (s.latchTx v).line = s.line := rfl
@[simp] theorem State.latchTx_cycle (s : State) (v : Byte) : (s.latchTx v).cycle = s.cycle := rfl

/-! `State.clearRx` -/

@[simp] theorem State.clearRx_cfg (s : State) : s.clearRx.cfg = s.cfg := rfl
@[simp] theorem State.clearRx_phase (s : State) : s.clearRx.phase = s.phase := rfl
@[simp] theorem State.clearRx_cnt (s : State) : s.clearRx.cnt = s.cnt := rfl
@[simp] theorem State.clearRx_op (s : State) : s.clearRx.op = s.op := rfl
@[simp] theorem State.clearRx_txbuf (s : State) : s.clearRx.txbuf = s.txbuf := rfl
@[simp] theorem State.clearRx_rxbuf (s : State) : s.clearRx.rxbuf = 0x00#8 := rfl
@[simp] theorem State.clearRx_bitidx (s : State) : s.clearRx.bitidx = s.bitidx := rfl
@[simp] theorem State.clearRx_presS (s : State) : s.clearRx.presS = s.presS := rfl
@[simp] theorem State.clearRx_sync (s : State) : s.clearRx.sync = s.sync := rfl
@[simp] theorem State.clearRx_done (s : State) : s.clearRx.done = s.done := rfl
@[simp] theorem State.clearRx_present (s : State) : s.clearRx.present = s.present := rfl
@[simp] theorem State.clearRx_cmderr (s : State) : s.clearRx.cmderr = s.cmderr := rfl
@[simp] theorem State.clearRx_errcode (s : State) : s.clearRx.errcode = s.errcode := rfl
@[simp] theorem State.clearRx_txdata (s : State) : s.clearRx.txdata = s.txdata := rfl
@[simp] theorem State.clearRx_rxdata (s : State) : s.clearRx.rxdata = s.rxdata := rfl
@[simp] theorem State.clearRx_irqEn (s : State) : s.clearRx.irqEn = s.irqEn := rfl
@[simp] theorem State.clearRx_launched (s : State) : s.clearRx.launched = s.launched := rfl
@[simp] theorem State.clearRx_host (s : State) : s.clearRx.host = s.host := rfl
@[simp] theorem State.clearRx_line (s : State) : s.clearRx.line = s.line := rfl
@[simp] theorem State.clearRx_cycle (s : State) : s.clearRx.cycle = s.cycle := rfl

/-! `State.clearDone` -/

@[simp] theorem State.clearDone_cfg (s : State) : s.clearDone.cfg = s.cfg := rfl
@[simp] theorem State.clearDone_phase (s : State) : s.clearDone.phase = s.phase := rfl
@[simp] theorem State.clearDone_cnt (s : State) : s.clearDone.cnt = s.cnt := rfl
@[simp] theorem State.clearDone_op (s : State) : s.clearDone.op = s.op := rfl
@[simp] theorem State.clearDone_txbuf (s : State) : s.clearDone.txbuf = s.txbuf := rfl
@[simp] theorem State.clearDone_rxbuf (s : State) : s.clearDone.rxbuf = s.rxbuf := rfl
@[simp] theorem State.clearDone_bitidx (s : State) : s.clearDone.bitidx = s.bitidx := rfl
@[simp] theorem State.clearDone_presS (s : State) : s.clearDone.presS = s.presS := rfl
@[simp] theorem State.clearDone_sync (s : State) : s.clearDone.sync = s.sync := rfl
@[simp] theorem State.clearDone_done (s : State) : s.clearDone.done = false := rfl
@[simp] theorem State.clearDone_present (s : State) : s.clearDone.present = s.present := rfl
@[simp] theorem State.clearDone_cmderr (s : State) : s.clearDone.cmderr = s.cmderr := rfl
@[simp] theorem State.clearDone_errcode (s : State) : s.clearDone.errcode = s.errcode := rfl
@[simp] theorem State.clearDone_txdata (s : State) : s.clearDone.txdata = s.txdata := rfl
@[simp] theorem State.clearDone_rxdata (s : State) : s.clearDone.rxdata = s.rxdata := rfl
@[simp] theorem State.clearDone_irqEn (s : State) : s.clearDone.irqEn = s.irqEn := rfl
@[simp] theorem State.clearDone_launched (s : State) : s.clearDone.launched = s.launched := rfl
@[simp] theorem State.clearDone_host (s : State) : s.clearDone.host = s.host := rfl
@[simp] theorem State.clearDone_line (s : State) : s.clearDone.line = s.line := rfl
@[simp] theorem State.clearDone_cycle (s : State) : s.clearDone.cycle = s.cycle := rfl

/-! `State.clearErr` -/

@[simp] theorem State.clearErr_cfg (s : State) : s.clearErr.cfg = s.cfg := rfl
@[simp] theorem State.clearErr_phase (s : State) : s.clearErr.phase = s.phase := rfl
@[simp] theorem State.clearErr_cnt (s : State) : s.clearErr.cnt = s.cnt := rfl
@[simp] theorem State.clearErr_op (s : State) : s.clearErr.op = s.op := rfl
@[simp] theorem State.clearErr_txbuf (s : State) : s.clearErr.txbuf = s.txbuf := rfl
@[simp] theorem State.clearErr_rxbuf (s : State) : s.clearErr.rxbuf = s.rxbuf := rfl
@[simp] theorem State.clearErr_bitidx (s : State) : s.clearErr.bitidx = s.bitidx := rfl
@[simp] theorem State.clearErr_presS (s : State) : s.clearErr.presS = s.presS := rfl
@[simp] theorem State.clearErr_sync (s : State) : s.clearErr.sync = s.sync := rfl
@[simp] theorem State.clearErr_done (s : State) : s.clearErr.done = s.done := rfl
@[simp] theorem State.clearErr_present (s : State) : s.clearErr.present = s.present := rfl
@[simp] theorem State.clearErr_cmderr (s : State) : s.clearErr.cmderr = false := rfl
@[simp] theorem State.clearErr_errcode (s : State) : s.clearErr.errcode = errNone := rfl
@[simp] theorem State.clearErr_txdata (s : State) : s.clearErr.txdata = s.txdata := rfl
@[simp] theorem State.clearErr_rxdata (s : State) : s.clearErr.rxdata = s.rxdata := rfl
@[simp] theorem State.clearErr_irqEn (s : State) : s.clearErr.irqEn = s.irqEn := rfl
@[simp] theorem State.clearErr_launched (s : State) : s.clearErr.launched = s.launched := rfl
@[simp] theorem State.clearErr_host (s : State) : s.clearErr.host = s.host := rfl
@[simp] theorem State.clearErr_line (s : State) : s.clearErr.line = s.line := rfl
@[simp] theorem State.clearErr_cycle (s : State) : s.clearErr.cycle = s.cycle := rfl

/-! `State.enter` -/

@[simp] theorem State.enter_cfg (s : State) (p : Phase) : (s.enter p).cfg = s.cfg := rfl
@[simp] theorem State.enter_phase (s : State) (p : Phase) : (s.enter p).phase = p := rfl
@[simp] theorem State.enter_cnt (s : State) (p : Phase) : (s.enter p).cnt = phaseCycles s.cfg p - 1 := rfl
@[simp] theorem State.enter_op (s : State) (p : Phase) : (s.enter p).op = s.op := rfl
@[simp] theorem State.enter_txbuf (s : State) (p : Phase) : (s.enter p).txbuf = s.txbuf := rfl
@[simp] theorem State.enter_rxbuf (s : State) (p : Phase) : (s.enter p).rxbuf = s.rxbuf := rfl
@[simp] theorem State.enter_bitidx (s : State) (p : Phase) : (s.enter p).bitidx = s.bitidx := rfl
@[simp] theorem State.enter_presS (s : State) (p : Phase) : (s.enter p).presS = s.presS := rfl
@[simp] theorem State.enter_sync (s : State) (p : Phase) : (s.enter p).sync = s.sync := rfl
@[simp] theorem State.enter_done (s : State) (p : Phase) : (s.enter p).done = s.done := rfl
@[simp] theorem State.enter_present (s : State) (p : Phase) : (s.enter p).present = s.present := rfl
@[simp] theorem State.enter_cmderr (s : State) (p : Phase) : (s.enter p).cmderr = s.cmderr := rfl
@[simp] theorem State.enter_errcode (s : State) (p : Phase) : (s.enter p).errcode = s.errcode := rfl
@[simp] theorem State.enter_txdata (s : State) (p : Phase) : (s.enter p).txdata = s.txdata := rfl
@[simp] theorem State.enter_rxdata (s : State) (p : Phase) : (s.enter p).rxdata = s.rxdata := rfl
@[simp] theorem State.enter_irqEn (s : State) (p : Phase) : (s.enter p).irqEn = s.irqEn := rfl
@[simp] theorem State.enter_launched (s : State) (p : Phase) : (s.enter p).launched = s.launched := rfl
@[simp] theorem State.enter_host (s : State) (p : Phase) : (s.enter p).host = s.host := rfl
@[simp] theorem State.enter_line (s : State) (p : Phase) : (s.enter p).line = s.line := rfl
@[simp] theorem State.enter_cycle (s : State) (p : Phase) : (s.enter p).cycle = s.cycle := rfl

/-! `State.samplePresence` -/

@[simp] theorem State.samplePresence_cfg (s : State) (b : Bool) : (s.samplePresence b).cfg = s.cfg := rfl
@[simp] theorem State.samplePresence_phase (s : State) (b : Bool) : (s.samplePresence b).phase = s.phase := rfl
@[simp] theorem State.samplePresence_cnt (s : State) (b : Bool) : (s.samplePresence b).cnt = s.cnt := rfl
@[simp] theorem State.samplePresence_op (s : State) (b : Bool) : (s.samplePresence b).op = s.op := rfl
@[simp] theorem State.samplePresence_txbuf (s : State) (b : Bool) : (s.samplePresence b).txbuf = s.txbuf := rfl
@[simp] theorem State.samplePresence_rxbuf (s : State) (b : Bool) : (s.samplePresence b).rxbuf = s.rxbuf := rfl
@[simp] theorem State.samplePresence_bitidx (s : State) (b : Bool) : (s.samplePresence b).bitidx = s.bitidx := rfl
@[simp] theorem State.samplePresence_presS (s : State) (b : Bool) : (s.samplePresence b).presS = !b := rfl
@[simp] theorem State.samplePresence_sync (s : State) (b : Bool) : (s.samplePresence b).sync = s.sync := rfl
@[simp] theorem State.samplePresence_done (s : State) (b : Bool) : (s.samplePresence b).done = s.done := rfl
@[simp] theorem State.samplePresence_present (s : State) (b : Bool) : (s.samplePresence b).present = s.present := rfl
@[simp] theorem State.samplePresence_cmderr (s : State) (b : Bool) : (s.samplePresence b).cmderr = s.cmderr := rfl
@[simp] theorem State.samplePresence_errcode (s : State) (b : Bool) : (s.samplePresence b).errcode = s.errcode := rfl
@[simp] theorem State.samplePresence_txdata (s : State) (b : Bool) : (s.samplePresence b).txdata = s.txdata := rfl
@[simp] theorem State.samplePresence_rxdata (s : State) (b : Bool) : (s.samplePresence b).rxdata = s.rxdata := rfl
@[simp] theorem State.samplePresence_irqEn (s : State) (b : Bool) : (s.samplePresence b).irqEn = s.irqEn := rfl
@[simp] theorem State.samplePresence_launched (s : State) (b : Bool) : (s.samplePresence b).launched = s.launched := rfl
@[simp] theorem State.samplePresence_host (s : State) (b : Bool) : (s.samplePresence b).host = s.host := rfl
@[simp] theorem State.samplePresence_line (s : State) (b : Bool) : (s.samplePresence b).line = s.line := rfl
@[simp] theorem State.samplePresence_cycle (s : State) (b : Bool) : (s.samplePresence b).cycle = s.cycle := rfl

/-! `State.sampleBit` -/

@[simp] theorem State.sampleBit_cfg (s : State) (b : Bool) : (s.sampleBit b).cfg = s.cfg := rfl
@[simp] theorem State.sampleBit_phase (s : State) (b : Bool) : (s.sampleBit b).phase = s.phase := rfl
@[simp] theorem State.sampleBit_cnt (s : State) (b : Bool) : (s.sampleBit b).cnt = s.cnt := rfl
@[simp] theorem State.sampleBit_op (s : State) (b : Bool) : (s.sampleBit b).op = s.op := rfl
@[simp] theorem State.sampleBit_txbuf (s : State) (b : Bool) : (s.sampleBit b).txbuf = s.txbuf := rfl
@[simp] theorem State.sampleBit_rxbuf (s : State) (b : Bool) : (s.sampleBit b).rxbuf = placeBit s.rxbuf s.bitidx b := rfl
@[simp] theorem State.sampleBit_bitidx (s : State) (b : Bool) : (s.sampleBit b).bitidx = s.bitidx := rfl
@[simp] theorem State.sampleBit_presS (s : State) (b : Bool) : (s.sampleBit b).presS = s.presS := rfl
@[simp] theorem State.sampleBit_sync (s : State) (b : Bool) : (s.sampleBit b).sync = s.sync := rfl
@[simp] theorem State.sampleBit_done (s : State) (b : Bool) : (s.sampleBit b).done = s.done := rfl
@[simp] theorem State.sampleBit_present (s : State) (b : Bool) : (s.sampleBit b).present = s.present := rfl
@[simp] theorem State.sampleBit_cmderr (s : State) (b : Bool) : (s.sampleBit b).cmderr = s.cmderr := rfl
@[simp] theorem State.sampleBit_errcode (s : State) (b : Bool) : (s.sampleBit b).errcode = s.errcode := rfl
@[simp] theorem State.sampleBit_txdata (s : State) (b : Bool) : (s.sampleBit b).txdata = s.txdata := rfl
@[simp] theorem State.sampleBit_rxdata (s : State) (b : Bool) : (s.sampleBit b).rxdata = s.rxdata := rfl
@[simp] theorem State.sampleBit_irqEn (s : State) (b : Bool) : (s.sampleBit b).irqEn = s.irqEn := rfl
@[simp] theorem State.sampleBit_launched (s : State) (b : Bool) : (s.sampleBit b).launched = s.launched := rfl
@[simp] theorem State.sampleBit_host (s : State) (b : Bool) : (s.sampleBit b).host = s.host := rfl
@[simp] theorem State.sampleBit_line (s : State) (b : Bool) : (s.sampleBit b).line = s.line := rfl
@[simp] theorem State.sampleBit_cycle (s : State) (b : Bool) : (s.sampleBit b).cycle = s.cycle := rfl

/-! `State.nextSlot` -/

@[simp] theorem State.nextSlot_cfg (s : State) : s.nextSlot.cfg = s.cfg := rfl
@[simp] theorem State.nextSlot_phase (s : State) : s.nextSlot.phase = s.phase := rfl
@[simp] theorem State.nextSlot_cnt (s : State) : s.nextSlot.cnt = s.cnt := rfl
@[simp] theorem State.nextSlot_op (s : State) : s.nextSlot.op = s.op := rfl
@[simp] theorem State.nextSlot_txbuf (s : State) : s.nextSlot.txbuf = s.txbuf := rfl
@[simp] theorem State.nextSlot_rxbuf (s : State) : s.nextSlot.rxbuf = s.rxbuf := rfl
@[simp] theorem State.nextSlot_bitidx (s : State) : s.nextSlot.bitidx = s.bitidx + 1#3 := rfl
@[simp] theorem State.nextSlot_presS (s : State) : s.nextSlot.presS = s.presS := rfl
@[simp] theorem State.nextSlot_sync (s : State) : s.nextSlot.sync = s.sync := rfl
@[simp] theorem State.nextSlot_done (s : State) : s.nextSlot.done = s.done := rfl
@[simp] theorem State.nextSlot_present (s : State) : s.nextSlot.present = s.present := rfl
@[simp] theorem State.nextSlot_cmderr (s : State) : s.nextSlot.cmderr = s.cmderr := rfl
@[simp] theorem State.nextSlot_errcode (s : State) : s.nextSlot.errcode = s.errcode := rfl
@[simp] theorem State.nextSlot_txdata (s : State) : s.nextSlot.txdata = s.txdata := rfl
@[simp] theorem State.nextSlot_rxdata (s : State) : s.nextSlot.rxdata = s.rxdata := rfl
@[simp] theorem State.nextSlot_irqEn (s : State) : s.nextSlot.irqEn = s.irqEn := rfl
@[simp] theorem State.nextSlot_launched (s : State) : s.nextSlot.launched = s.launched := rfl
@[simp] theorem State.nextSlot_host (s : State) : s.nextSlot.host = s.host := rfl
@[simp] theorem State.nextSlot_line (s : State) : s.nextSlot.line = s.line := rfl
@[simp] theorem State.nextSlot_cycle (s : State) : s.nextSlot.cycle = s.cycle := rfl

/-! `State.complete` -/

@[simp] theorem State.complete_cfg (s : State) : s.complete.cfg = s.cfg := rfl
@[simp] theorem State.complete_phase (s : State) : s.complete.phase = s.phase := rfl
@[simp] theorem State.complete_cnt (s : State) : s.complete.cnt = s.cnt := rfl
@[simp] theorem State.complete_op (s : State) : s.complete.op = s.op := rfl
@[simp] theorem State.complete_txbuf (s : State) : s.complete.txbuf = s.txbuf := rfl
@[simp] theorem State.complete_rxbuf (s : State) : s.complete.rxbuf = s.rxbuf := rfl
@[simp] theorem State.complete_bitidx (s : State) : s.complete.bitidx = s.bitidx := rfl
@[simp] theorem State.complete_presS (s : State) : s.complete.presS = s.presS := rfl
@[simp] theorem State.complete_sync (s : State) : s.complete.sync = s.sync := rfl
@[simp] theorem State.complete_done (s : State) : s.complete.done = true := rfl
@[simp] theorem State.complete_present (s : State) : s.complete.present = if isResetOp s.op then s.presS else s.present := rfl
@[simp] theorem State.complete_cmderr (s : State) : s.complete.cmderr = s.cmderr := rfl
@[simp] theorem State.complete_errcode (s : State) : s.complete.errcode = s.errcode := rfl
@[simp] theorem State.complete_txdata (s : State) : s.complete.txdata = s.txdata := rfl
@[simp] theorem State.complete_rxdata (s : State) : s.complete.rxdata = if isReadOp s.op then s.rxbuf else s.rxdata := rfl
@[simp] theorem State.complete_irqEn (s : State) : s.complete.irqEn = s.irqEn := rfl
@[simp] theorem State.complete_launched (s : State) : s.complete.launched = s.launched := rfl
@[simp] theorem State.complete_host (s : State) : s.complete.host = s.host := rfl
@[simp] theorem State.complete_line (s : State) : s.complete.line = s.line := rfl
@[simp] theorem State.complete_cycle (s : State) : s.complete.cycle = s.cycle := rfl

/-! `State.countDown` -/

@[simp] theorem State.countDown_cfg (s : State) : s.countDown.cfg = s.cfg := rfl
@[simp] theorem State.countDown_phase (s : State) : s.countDown.phase = s.phase := rfl
@[simp] theorem State.countDown_cnt (s : State) : s.countDown.cnt = s.cnt - 1 := rfl
@[simp] theorem State.countDown_op (s : State) : s.countDown.op = s.op := rfl
@[simp] theorem State.countDown_txbuf (s : State) : s.countDown.txbuf = s.txbuf := rfl
@[simp] theorem State.countDown_rxbuf (s : State) : s.countDown.rxbuf = s.rxbuf := rfl
@[simp] theorem State.countDown_bitidx (s : State) : s.countDown.bitidx = s.bitidx := rfl
@[simp] theorem State.countDown_presS (s : State) : s.countDown.presS = s.presS := rfl
@[simp] theorem State.countDown_sync (s : State) : s.countDown.sync = s.sync := rfl
@[simp] theorem State.countDown_done (s : State) : s.countDown.done = s.done := rfl
@[simp] theorem State.countDown_present (s : State) : s.countDown.present = s.present := rfl
@[simp] theorem State.countDown_cmderr (s : State) : s.countDown.cmderr = s.cmderr := rfl
@[simp] theorem State.countDown_errcode (s : State) : s.countDown.errcode = s.errcode := rfl
@[simp] theorem State.countDown_txdata (s : State) : s.countDown.txdata = s.txdata := rfl
@[simp] theorem State.countDown_rxdata (s : State) : s.countDown.rxdata = s.rxdata := rfl
@[simp] theorem State.countDown_irqEn (s : State) : s.countDown.irqEn = s.irqEn := rfl
@[simp] theorem State.countDown_launched (s : State) : s.countDown.launched = s.launched := rfl
@[simp] theorem State.countDown_host (s : State) : s.countDown.host = s.host := rfl
@[simp] theorem State.countDown_line (s : State) : s.countDown.line = s.line := rfl
@[simp] theorem State.countDown_cycle (s : State) : s.countDown.cycle = s.cycle := rfl

/-! `State.accept` -/

@[simp] theorem State.accept_cfg (s : State) (op : BitVec 3) (p : Phase) : (s.accept op p).cfg = s.cfg := rfl
@[simp] theorem State.accept_phase (s : State) (op : BitVec 3) (p : Phase) : (s.accept op p).phase = p := rfl
@[simp] theorem State.accept_cnt (s : State) (op : BitVec 3) (p : Phase) : (s.accept op p).cnt = phaseCycles s.cfg p - 1 := rfl
@[simp] theorem State.accept_op (s : State) (op : BitVec 3) (p : Phase) : (s.accept op p).op = op := rfl
@[simp] theorem State.accept_txbuf (s : State) (op : BitVec 3) (p : Phase) : (s.accept op p).txbuf = s.txbuf := rfl
@[simp] theorem State.accept_rxbuf (s : State) (op : BitVec 3) (p : Phase) : (s.accept op p).rxbuf = s.rxbuf := rfl
@[simp] theorem State.accept_bitidx (s : State) (op : BitVec 3) (p : Phase) : (s.accept op p).bitidx = 0#3 := rfl
@[simp] theorem State.accept_presS (s : State) (op : BitVec 3) (p : Phase) : (s.accept op p).presS = s.presS := rfl
@[simp] theorem State.accept_sync (s : State) (op : BitVec 3) (p : Phase) : (s.accept op p).sync = s.sync := rfl
@[simp] theorem State.accept_done (s : State) (op : BitVec 3) (p : Phase) : (s.accept op p).done = false := rfl
@[simp] theorem State.accept_present (s : State) (op : BitVec 3) (p : Phase) : (s.accept op p).present = s.present := rfl
@[simp] theorem State.accept_cmderr (s : State) (op : BitVec 3) (p : Phase) : (s.accept op p).cmderr = s.cmderr := rfl
@[simp] theorem State.accept_errcode (s : State) (op : BitVec 3) (p : Phase) : (s.accept op p).errcode = s.errcode := rfl
@[simp] theorem State.accept_txdata (s : State) (op : BitVec 3) (p : Phase) : (s.accept op p).txdata = s.txdata := rfl
@[simp] theorem State.accept_rxdata (s : State) (op : BitVec 3) (p : Phase) : (s.accept op p).rxdata = s.rxdata := rfl
@[simp] theorem State.accept_irqEn (s : State) (op : BitVec 3) (p : Phase) : (s.accept op p).irqEn = s.irqEn := rfl
@[simp] theorem State.accept_launched (s : State) (op : BitVec 3) (p : Phase) : (s.accept op p).launched = s.launched := rfl
@[simp] theorem State.accept_host (s : State) (op : BitVec 3) (p : Phase) : (s.accept op p).host = s.host := rfl
@[simp] theorem State.accept_line (s : State) (op : BitVec 3) (p : Phase) : (s.accept op p).line = s.line := rfl
@[simp] theorem State.accept_cycle (s : State) (op : BitVec 3) (p : Phase) : (s.accept op p).cycle = s.cycle := rfl

/-! `State.resetEdge` -/

@[simp] theorem State.resetEdge_cfg (s : State) : s.resetEdge.cfg = s.cfg := rfl
@[simp] theorem State.resetEdge_phase (s : State) : s.resetEdge.phase = .idle := rfl
@[simp] theorem State.resetEdge_cnt (s : State) : s.resetEdge.cnt = 0 := rfl
@[simp] theorem State.resetEdge_op (s : State) : s.resetEdge.op = 0#3 := rfl
@[simp] theorem State.resetEdge_txbuf (s : State) : s.resetEdge.txbuf = 0x00#8 := rfl
@[simp] theorem State.resetEdge_rxbuf (s : State) : s.resetEdge.rxbuf = 0x00#8 := rfl
@[simp] theorem State.resetEdge_bitidx (s : State) : s.resetEdge.bitidx = 0#3 := rfl
@[simp] theorem State.resetEdge_presS (s : State) : s.resetEdge.presS = false := rfl
@[simp] theorem State.resetEdge_sync (s : State) : s.resetEdge.sync = List.replicate s.cfg.syncStages true := rfl
@[simp] theorem State.resetEdge_done (s : State) : s.resetEdge.done = false := rfl
@[simp] theorem State.resetEdge_present (s : State) : s.resetEdge.present = false := rfl
@[simp] theorem State.resetEdge_cmderr (s : State) : s.resetEdge.cmderr = false := rfl
@[simp] theorem State.resetEdge_errcode (s : State) : s.resetEdge.errcode = 0#2 := rfl
@[simp] theorem State.resetEdge_txdata (s : State) : s.resetEdge.txdata = 0x00#8 := rfl
@[simp] theorem State.resetEdge_rxdata (s : State) : s.resetEdge.rxdata = 0x00#8 := rfl
@[simp] theorem State.resetEdge_irqEn (s : State) : s.resetEdge.irqEn = false := rfl
@[simp] theorem State.resetEdge_launched (s : State) : s.resetEdge.launched = true := rfl
@[simp] theorem State.resetEdge_host (s : State) : s.resetEdge.host = s.host := rfl
@[simp] theorem State.resetEdge_line (s : State) : s.resetEdge.line = s.line := rfl
@[simp] theorem State.resetEdge_cycle (s : State) : s.resetEdge.cycle = s.cycle := rfl

/-! `State.endCycle` -/

@[simp] theorem State.endCycle_cfg (s : State) : s.endCycle.cfg = s.cfg := rfl
@[simp] theorem State.endCycle_phase (s : State) : s.endCycle.phase = s.phase := rfl
@[simp] theorem State.endCycle_cnt (s : State) : s.endCycle.cnt = s.cnt := rfl
@[simp] theorem State.endCycle_op (s : State) : s.endCycle.op = s.op := rfl
@[simp] theorem State.endCycle_txbuf (s : State) : s.endCycle.txbuf = s.txbuf := rfl
@[simp] theorem State.endCycle_rxbuf (s : State) : s.endCycle.rxbuf = s.rxbuf := rfl
@[simp] theorem State.endCycle_bitidx (s : State) : s.endCycle.bitidx = s.bitidx := rfl
@[simp] theorem State.endCycle_presS (s : State) : s.endCycle.presS = s.presS := rfl
@[simp] theorem State.endCycle_sync (s : State) : s.endCycle.sync = s.sync := rfl
@[simp] theorem State.endCycle_done (s : State) : s.endCycle.done = s.done := rfl
@[simp] theorem State.endCycle_present (s : State) : s.endCycle.present = s.present := rfl
@[simp] theorem State.endCycle_cmderr (s : State) : s.endCycle.cmderr = s.cmderr := rfl
@[simp] theorem State.endCycle_errcode (s : State) : s.endCycle.errcode = s.errcode := rfl
@[simp] theorem State.endCycle_txdata (s : State) : s.endCycle.txdata = s.txdata := rfl
@[simp] theorem State.endCycle_rxdata (s : State) : s.endCycle.rxdata = s.rxdata := rfl
@[simp] theorem State.endCycle_irqEn (s : State) : s.endCycle.irqEn = s.irqEn := rfl
@[simp] theorem State.endCycle_launched (s : State) : s.endCycle.launched = s.launched := rfl
@[simp] theorem State.endCycle_host (s : State) : s.endCycle.host = s.host.tail := rfl
@[simp] theorem State.endCycle_line (s : State) : s.endCycle.line = s.line.tail := rfl
@[simp] theorem State.endCycle_cycle (s : State) : s.endCycle.cycle = s.cycle + 1 := rfl

/-! `State.withAccess` -/

@[simp] theorem State.withAccess_cfg (s : State) (a : HostAccess) : (s.withAccess a).cfg = s.cfg := rfl
@[simp] theorem State.withAccess_phase (s : State) (a : HostAccess) : (s.withAccess a).phase = s.phase := rfl
@[simp] theorem State.withAccess_cnt (s : State) (a : HostAccess) : (s.withAccess a).cnt = s.cnt := rfl
@[simp] theorem State.withAccess_op (s : State) (a : HostAccess) : (s.withAccess a).op = s.op := rfl
@[simp] theorem State.withAccess_txbuf (s : State) (a : HostAccess) : (s.withAccess a).txbuf = s.txbuf := rfl
@[simp] theorem State.withAccess_rxbuf (s : State) (a : HostAccess) : (s.withAccess a).rxbuf = s.rxbuf := rfl
@[simp] theorem State.withAccess_bitidx (s : State) (a : HostAccess) : (s.withAccess a).bitidx = s.bitidx := rfl
@[simp] theorem State.withAccess_presS (s : State) (a : HostAccess) : (s.withAccess a).presS = s.presS := rfl
@[simp] theorem State.withAccess_sync (s : State) (a : HostAccess) : (s.withAccess a).sync = s.sync := rfl
@[simp] theorem State.withAccess_done (s : State) (a : HostAccess) : (s.withAccess a).done = s.done := rfl
@[simp] theorem State.withAccess_present (s : State) (a : HostAccess) : (s.withAccess a).present = s.present := rfl
@[simp] theorem State.withAccess_cmderr (s : State) (a : HostAccess) : (s.withAccess a).cmderr = s.cmderr := rfl
@[simp] theorem State.withAccess_errcode (s : State) (a : HostAccess) : (s.withAccess a).errcode = s.errcode := rfl
@[simp] theorem State.withAccess_txdata (s : State) (a : HostAccess) : (s.withAccess a).txdata = s.txdata := rfl
@[simp] theorem State.withAccess_rxdata (s : State) (a : HostAccess) : (s.withAccess a).rxdata = s.rxdata := rfl
@[simp] theorem State.withAccess_irqEn (s : State) (a : HostAccess) : (s.withAccess a).irqEn = s.irqEn := rfl
@[simp] theorem State.withAccess_launched (s : State) (a : HostAccess) : (s.withAccess a).launched = s.launched := rfl
@[simp] theorem State.withAccess_host (s : State) (a : HostAccess) : (s.withAccess a).host = { rst := false, access := a } :: s.host.tail := rfl
@[simp] theorem State.withAccess_line (s : State) (a : HostAccess) : (s.withAccess a).line = s.line := rfl
@[simp] theorem State.withAccess_cycle (s : State) (a : HostAccess) : (s.withAccess a).cycle = s.cycle := rfl

/-! `State.reject`: the fields it never touches. -/

@[simp] theorem State.reject_cfg (s : State) (c : BitVec 2) : (s.reject c).cfg = s.cfg := by
  unfold State.reject; split <;> rfl
@[simp] theorem State.reject_phase (s : State) (c : BitVec 2) : (s.reject c).phase = s.phase := by
  unfold State.reject; split <;> rfl
@[simp] theorem State.reject_cnt (s : State) (c : BitVec 2) : (s.reject c).cnt = s.cnt := by
  unfold State.reject; split <;> rfl
@[simp] theorem State.reject_op (s : State) (c : BitVec 2) : (s.reject c).op = s.op := by
  unfold State.reject; split <;> rfl
@[simp] theorem State.reject_txbuf (s : State) (c : BitVec 2) : (s.reject c).txbuf = s.txbuf := by
  unfold State.reject; split <;> rfl
@[simp] theorem State.reject_rxbuf (s : State) (c : BitVec 2) : (s.reject c).rxbuf = s.rxbuf := by
  unfold State.reject; split <;> rfl
@[simp] theorem State.reject_bitidx (s : State) (c : BitVec 2) : (s.reject c).bitidx = s.bitidx := by
  unfold State.reject; split <;> rfl
@[simp] theorem State.reject_presS (s : State) (c : BitVec 2) : (s.reject c).presS = s.presS := by
  unfold State.reject; split <;> rfl
@[simp] theorem State.reject_sync (s : State) (c : BitVec 2) : (s.reject c).sync = s.sync := by
  unfold State.reject; split <;> rfl
@[simp] theorem State.reject_done (s : State) (c : BitVec 2) : (s.reject c).done = s.done := by
  unfold State.reject; split <;> rfl
@[simp] theorem State.reject_present (s : State) (c : BitVec 2) : (s.reject c).present = s.present := by
  unfold State.reject; split <;> rfl
@[simp] theorem State.reject_txdata (s : State) (c : BitVec 2) : (s.reject c).txdata = s.txdata := by
  unfold State.reject; split <;> rfl
@[simp] theorem State.reject_rxdata (s : State) (c : BitVec 2) : (s.reject c).rxdata = s.rxdata := by
  unfold State.reject; split <;> rfl
@[simp] theorem State.reject_irqEn (s : State) (c : BitVec 2) : (s.reject c).irqEn = s.irqEn := by
  unfold State.reject; split <;> rfl
@[simp] theorem State.reject_launched (s : State) (c : BitVec 2) : (s.reject c).launched = s.launched := by
  unfold State.reject; split <;> rfl
@[simp] theorem State.reject_host (s : State) (c : BitVec 2) : (s.reject c).host = s.host := by
  unfold State.reject; split <;> rfl
@[simp] theorem State.reject_line (s : State) (c : BitVec 2) : (s.reject c).line = s.line := by
  unfold State.reject; split <;> rfl
@[simp] theorem State.reject_cycle (s : State) (c : BitVec 2) : (s.reject c).cycle = s.cycle := by
  unfold State.reject; split <;> rfl

/-! `State.acknowledge`: the fields it never touches. -/

@[simp] theorem State.acknowledge_cfg (s : State) (b : Bool) (v : Byte) : (s.acknowledge b v).cfg = s.cfg := by
  unfold State.acknowledge; split <;> split <;> rfl
@[simp] theorem State.acknowledge_phase (s : State) (b : Bool) (v : Byte) : (s.acknowledge b v).phase = s.phase := by
  unfold State.acknowledge; split <;> split <;> rfl
@[simp] theorem State.acknowledge_cnt (s : State) (b : Bool) (v : Byte) : (s.acknowledge b v).cnt = s.cnt := by
  unfold State.acknowledge; split <;> split <;> rfl
@[simp] theorem State.acknowledge_op (s : State) (b : Bool) (v : Byte) : (s.acknowledge b v).op = s.op := by
  unfold State.acknowledge; split <;> split <;> rfl
@[simp] theorem State.acknowledge_txbuf (s : State) (b : Bool) (v : Byte) : (s.acknowledge b v).txbuf = s.txbuf := by
  unfold State.acknowledge; split <;> split <;> rfl
@[simp] theorem State.acknowledge_rxbuf (s : State) (b : Bool) (v : Byte) : (s.acknowledge b v).rxbuf = s.rxbuf := by
  unfold State.acknowledge; split <;> split <;> rfl
@[simp] theorem State.acknowledge_bitidx (s : State) (b : Bool) (v : Byte) : (s.acknowledge b v).bitidx = s.bitidx := by
  unfold State.acknowledge; split <;> split <;> rfl
@[simp] theorem State.acknowledge_presS (s : State) (b : Bool) (v : Byte) : (s.acknowledge b v).presS = s.presS := by
  unfold State.acknowledge; split <;> split <;> rfl
@[simp] theorem State.acknowledge_sync (s : State) (b : Bool) (v : Byte) : (s.acknowledge b v).sync = s.sync := by
  unfold State.acknowledge; split <;> split <;> rfl
@[simp] theorem State.acknowledge_present (s : State) (b : Bool) (v : Byte) : (s.acknowledge b v).present = s.present := by
  unfold State.acknowledge; split <;> split <;> rfl
@[simp] theorem State.acknowledge_txdata (s : State) (b : Bool) (v : Byte) : (s.acknowledge b v).txdata = s.txdata := by
  unfold State.acknowledge; split <;> split <;> rfl
@[simp] theorem State.acknowledge_rxdata (s : State) (b : Bool) (v : Byte) : (s.acknowledge b v).rxdata = s.rxdata := by
  unfold State.acknowledge; split <;> split <;> rfl
@[simp] theorem State.acknowledge_irqEn (s : State) (b : Bool) (v : Byte) : (s.acknowledge b v).irqEn = s.irqEn := by
  unfold State.acknowledge; split <;> split <;> rfl
@[simp] theorem State.acknowledge_launched (s : State) (b : Bool) (v : Byte) : (s.acknowledge b v).launched = s.launched := by
  unfold State.acknowledge; split <;> split <;> rfl
@[simp] theorem State.acknowledge_host (s : State) (b : Bool) (v : Byte) : (s.acknowledge b v).host = s.host := by
  unfold State.acknowledge; split <;> split <;> rfl
@[simp] theorem State.acknowledge_line (s : State) (b : Bool) (v : Byte) : (s.acknowledge b v).line = s.line := by
  unfold State.acknowledge; split <;> split <;> rfl
@[simp] theorem State.acknowledge_cycle (s : State) (b : Bool) (v : Byte) : (s.acknowledge b v).cycle = s.cycle := by
  unfold State.acknowledge; split <;> split <;> rfl

/-! `State.exitAction`: the fields it never touches. -/

@[simp] theorem State.exitAction_cfg (s : State) (b : Bool) (p : Phase) : (s.exitAction b p).cfg = s.cfg := by
  unfold State.exitAction; split <;> first | rfl | (split <;> rfl)
@[simp] theorem State.exitAction_phase (s : State) (b : Bool) (p : Phase) : (s.exitAction b p).phase = s.phase := by
  unfold State.exitAction; split <;> first | rfl | (split <;> rfl)
@[simp] theorem State.exitAction_cnt (s : State) (b : Bool) (p : Phase) : (s.exitAction b p).cnt = s.cnt := by
  unfold State.exitAction; split <;> first | rfl | (split <;> rfl)
@[simp] theorem State.exitAction_op (s : State) (b : Bool) (p : Phase) : (s.exitAction b p).op = s.op := by
  unfold State.exitAction; split <;> first | rfl | (split <;> rfl)
@[simp] theorem State.exitAction_txbuf (s : State) (b : Bool) (p : Phase) : (s.exitAction b p).txbuf = s.txbuf := by
  unfold State.exitAction; split <;> first | rfl | (split <;> rfl)
@[simp] theorem State.exitAction_sync (s : State) (b : Bool) (p : Phase) : (s.exitAction b p).sync = s.sync := by
  unfold State.exitAction; split <;> first | rfl | (split <;> rfl)
@[simp] theorem State.exitAction_cmderr (s : State) (b : Bool) (p : Phase) : (s.exitAction b p).cmderr = s.cmderr := by
  unfold State.exitAction; split <;> first | rfl | (split <;> rfl)
@[simp] theorem State.exitAction_errcode (s : State) (b : Bool) (p : Phase) : (s.exitAction b p).errcode = s.errcode := by
  unfold State.exitAction; split <;> first | rfl | (split <;> rfl)
@[simp] theorem State.exitAction_txdata (s : State) (b : Bool) (p : Phase) : (s.exitAction b p).txdata = s.txdata := by
  unfold State.exitAction; split <;> first | rfl | (split <;> rfl)
@[simp] theorem State.exitAction_irqEn (s : State) (b : Bool) (p : Phase) : (s.exitAction b p).irqEn = s.irqEn := by
  unfold State.exitAction; split <;> first | rfl | (split <;> rfl)
@[simp] theorem State.exitAction_launched (s : State) (b : Bool) (p : Phase) : (s.exitAction b p).launched = s.launched := by
  unfold State.exitAction; split <;> first | rfl | (split <;> rfl)
@[simp] theorem State.exitAction_host (s : State) (b : Bool) (p : Phase) : (s.exitAction b p).host = s.host := by
  unfold State.exitAction; split <;> first | rfl | (split <;> rfl)
@[simp] theorem State.exitAction_line (s : State) (b : Bool) (p : Phase) : (s.exitAction b p).line = s.line := by
  unfold State.exitAction; split <;> first | rfl | (split <;> rfl)
@[simp] theorem State.exitAction_cycle (s : State) (b : Bool) (p : Phase) : (s.exitAction b p).cycle = s.cycle := by
  unfold State.exitAction; split <;> first | rfl | (split <;> rfl)

/-! `State.reject` and `State.acknowledge`: the fields they may touch. -/

@[simp] theorem State.reject_cmderr (s : State) (c : BitVec 2) : (s.reject c).cmderr = true := by
  unfold State.reject; split <;> simp_all
@[simp] theorem State.reject_errcode (s : State) (c : BitVec 2) :
    (s.reject c).errcode = if s.cmderr then s.errcode else c := by
  unfold State.reject; split <;> rfl
@[simp] theorem State.acknowledge_done (s : State) (b : Bool) (v : Byte) :
    (s.acknowledge b v).done = if v.getLsbD 1 && !b then false else s.done := by
  unfold State.acknowledge; split <;> split <;> simp_all
@[simp] theorem State.acknowledge_cmderr (s : State) (b : Bool) (v : Byte) :
    (s.acknowledge b v).cmderr = if v.getLsbD 3 then false else s.cmderr := by
  unfold State.acknowledge; split <;> split <;> rfl
@[simp] theorem State.acknowledge_errcode (s : State) (b : Bool) (v : Byte) :
    (s.acknowledge b v).errcode = if v.getLsbD 3 then errNone else s.errcode := by
  unfold State.acknowledge; split <;> split <;> rfl

/-! `State.exitAction`: what each phase's end does (40_bus_driver.md R72). -/

theorem State.exitAction_rxbuf (s : State) (b : Bool) (p : Phase) :
    (s.exitAction b p).rxbuf = if s.phase = .rwait then placeBit s.rxbuf s.bitidx b else s.rxbuf := by
  unfold State.exitAction; split <;> simp_all; split <;> rfl
theorem State.exitAction_presS (s : State) (b : Bool) (p : Phase) :
    (s.exitAction b p).presS = if s.phase = .rstWait then !b else s.presS := by
  unfold State.exitAction; split <;> simp_all; split <;> rfl
theorem State.exitAction_bitidx (s : State) (b : Bool) (p : Phase) :
    (s.exitAction b p).bitidx = if s.phase = .recov ∧ p = .init then s.bitidx + 1#3 else s.bitidx := by
  unfold State.exitAction; split <;> simp_all; split <;> rfl

/-- Whether the exit of `s.phase` towards `p` is a `Complete()` (R72, R73). -/
def completes (s : State) (p : Phase) : Bool := decide (s.phase = .rstRem) || (decide (s.phase = .recov) && decide (p ≠ .init))

theorem State.exitAction_done (s : State) (b : Bool) (p : Phase) :
    (s.exitAction b p).done = if completes s p then true else s.done := by
  unfold State.exitAction completes; split <;> simp_all; split <;> simp_all
theorem State.exitAction_present (s : State) (b : Bool) (p : Phase) :
    (s.exitAction b p).present = if completes s p && isResetOp s.op then s.presS else s.present := by
  unfold State.exitAction completes; split <;> simp_all; split <;> simp_all
theorem State.exitAction_rxdata (s : State) (b : Bool) (p : Phase) :
    (s.exitAction b p).rxdata = if completes s p && isReadOp s.op then s.rxbuf else s.rxdata := by
  unfold State.exitAction completes; split <;> simp_all; split <;> simp_all

/-! The same after the synchronizer's shift, in terms of the state before the edge (the form in which an edge meets
them). -/

@[simp] theorem completes_shiftSync (s : State) (p : Phase) : completes s.shiftSync p = completes s p := rfl
@[simp] theorem State.shiftSync_exitAction_rxbuf (s : State) (b : Bool) (p : Phase) :
    (s.shiftSync.exitAction b p).rxbuf = if s.phase = .rwait then placeBit s.rxbuf s.bitidx b else s.rxbuf :=
  State.exitAction_rxbuf s.shiftSync b p
@[simp] theorem State.shiftSync_exitAction_presS (s : State) (b : Bool) (p : Phase) :
    (s.shiftSync.exitAction b p).presS = if s.phase = .rstWait then !b else s.presS :=
  State.exitAction_presS s.shiftSync b p
@[simp] theorem State.shiftSync_exitAction_bitidx (s : State) (b : Bool) (p : Phase) :
    (s.shiftSync.exitAction b p).bitidx = if s.phase = .recov ∧ p = .init then s.bitidx + 1#3 else s.bitidx :=
  State.exitAction_bitidx s.shiftSync b p
@[simp] theorem State.shiftSync_exitAction_done (s : State) (b : Bool) (p : Phase) :
    (s.shiftSync.exitAction b p).done = if completes s p then true else s.done :=
  State.exitAction_done s.shiftSync b p
@[simp] theorem State.shiftSync_exitAction_present (s : State) (b : Bool) (p : Phase) :
    (s.shiftSync.exitAction b p).present = if completes s p && isResetOp s.op then s.presS else s.present :=
  State.exitAction_present s.shiftSync b p
@[simp] theorem State.shiftSync_exitAction_rxdata (s : State) (b : Bool) (p : Phase) :
    (s.shiftSync.exitAction b p).rxdata = if completes s p && isReadOp s.op then s.rxbuf else s.rxdata :=
  State.exitAction_rxdata s.shiftSync b p

end Sys2Proof.Machine
end

