-- ==== Sys2Proof/Laws/Step.lean ====
section
/-! SUPPORT. Everything one clock edge can do, said once: the FSM's part (`fsmEdge_cases`), the host access's part
(`accessEffect`), and the two together (`step_cases`, `step_of_ordinary`). -/

namespace Sys2Proof.Machine

/-! The FSM's part of the edge. -/

theorem fsmEdge_idle {s : State} (h : s.phase = .idle) : fsmEdge s = some s.shiftSync := by simp [fsmEdge, h]

theorem fsmEdge_count {s : State} (h : s.phase ≠ .idle) (hc : 0 < s.cnt) : fsmEdge s = some s.shiftSync.countDown := by
  simp [fsmEdge, h, hc]

theorem fsmEdge_exit {s : State} {p : Phase} (h : s.phase ≠ .idle) (hc : s.cnt = 0)
    (hp : nextPhase s.op s.bitidx s.phase = some p) :
    fsmEdge s = some ((s.shiftSync.exitAction s.lineSync p).enter p) := by
  simp [fsmEdge, h, hc, hp]

/-- All the FSM can do at an edge. -/
theorem fsmEdge_cases {s u : State} (h : fsmEdge s = some u) :
    (s.phase = .idle ∧ u = s.shiftSync) ∨
    (s.phase ≠ .idle ∧ 0 < s.cnt ∧ u = s.shiftSync.countDown) ∨
    (s.phase ≠ .idle ∧ s.cnt = 0 ∧ ∃ p, nextPhase s.op s.bitidx s.phase = some p ∧
      u = (s.shiftSync.exitAction s.lineSync p).enter p) := by
  by_cases hi : s.phase = .idle
  · rw [fsmEdge_idle hi] at h
    exact .inl ⟨hi, (Option.some.inj h).symm⟩
  · by_cases hc : 0 < s.cnt
    · rw [fsmEdge_count hi hc] at h
      exact .inr (.inl ⟨hi, hc, (Option.some.inj h).symm⟩)
    · have h0 : s.cnt = 0 := by omega
      cases hp : nextPhase s.op s.bitidx s.phase with
      | none => simp [fsmEdge, hi, h0, hp] at h
      | some p =>
        rw [fsmEdge_exit hi h0 hp] at h
        exact .inr (.inr ⟨hi, h0, p, rfl, (Option.some.inj h).symm⟩)

/-- The FSM's part of an edge touches none of these (R74). -/
theorem fsmEdge_frame {s u : State} (h : fsmEdge s = some u) :
    u.cfg = s.cfg ∧ u.op = s.op ∧ u.txbuf = s.txbuf ∧ u.cmderr = s.cmderr ∧ u.errcode = s.errcode ∧
    u.txdata = s.txdata ∧ u.irqEn = s.irqEn ∧ u.launched = s.launched ∧ u.host = s.host ∧ u.line = s.line ∧
    u.cycle = s.cycle ∧ u.sync = (s.owI :: s.sync).dropLast := by
  obtain ⟨-, rfl⟩ | ⟨-, -, rfl⟩ | ⟨-, -, p, -, rfl⟩ := fsmEdge_cases h <;> simp

theorem onEdge_next {s t : State} {k : State → State} :
    onEdge s k = .next t ↔ ∃ u, fsmEdge s = some u ∧ t = k u := by
  unfold onEdge
  cases fsmEdge s with
  | none => simp
  | some u => simp [eq_comm]

theorem onEdge_of_fsmEdge {s u : State} (k : State → State) (h : fsmEdge s = some u) : onEdge s k = .next (k u) := by
  simp [onEdge, h]

/-! The host access's part of the edge. -/

/-- The first phase of a command (R70). -/
def firstPhase : Instr → Phase
  | .owReset => .rstLow
  | .owWriteBit _ | .owReadBit | .owWriteByte | .owReadByte => .init

/-- The operand a command puts in place at its accepting edge (R70); `v` is the TXDATA of the cycle of the CMD write. -/
def operandLoad (v : Byte) : Instr → State → State
  | .owReset => id
  | .owWriteBit b => State.latchTx (bitOperand b)
  | .owReadBit => State.clearRx
  | .owWriteByte => State.latchTx v
  | .owReadByte => State.clearRx

/-- What a CMD write of a command does on top of the FSM's part of the edge (R74, case 0). -/
def commandEffect (i : Instr) (s t : State) : State :=
  if s.phase = .idle then (operandLoad s.txdata i t).accept i.opCode (firstPhase i) else t.reject errBusy

/-- Every meaning is one shared shape. -/
theorem exec_eq (i : Instr) (s : State) : exec i s = onEdge s (commandEffect i s) := by
  cases i <;> rfl

/-- What the host's access of a cycle does on top of the FSM's part of the edge (R74). -/
def accessEffect (bus : Bus) (s t : State) : State :=
  if bus.writesCmd then
    match decodeByte bus.wdata with
    | .ok i => commandEffect i s t
    | .error _ => t.reject (if s.phase = .idle then errIllegal else errBusy)
  else if bus.sel && bus.we then
    match bus.addr.toNat with
    | 1 => t.acknowledge s.completionEdge bus.wdata
    | 2 => { t with txdata := bus.wdata }
    | 4 => { t with irqEn := bus.wdata.getLsbD 0 }
    | _ => t
  else t

theorem busEdge_eq (bus : Bus) (s : State) : busEdge bus s = onEdge s (accessEffect bus s) := by
  unfold busEdge
  split
  · rename_i hw
    split <;> rename_i hd
    · rw [exec_eq]; congr 1; funext t; simp [accessEffect, hw, hd]
    · unfold issueIllegal; congr 1; funext t; simp [accessEffect, hw, hd]
  · rename_i hw
    unfold portEdge
    split
    · rename_i hs
      split
      · rename_i ha; unfold statusWrite; congr 1; funext t; simp [accessEffect, hw, hs, ha]
      · rename_i ha; unfold txdataWrite; congr 1; funext t; simp [accessEffect, hw, hs, ha]
      · rename_i ha; unfold ctrlWrite; congr 1; funext t; simp [accessEffect, hw, hs, ha]
      · rename_i h1 h2 h4; unfold quietEdge; congr 1; funext t; simp [accessEffect, hw, hs]
    · rename_i hs
      unfold quietEdge; congr 1; funext t; simp [accessEffect, hw, hs]

/-- The three ways an access can act on the state `t` the FSM's part leaves. -/
theorem accessEffect_cases (bus : Bus) (s t : State) :
    (s.phase = .idle ∧ ∃ i, bus.writesCmd = true ∧ decodeByte bus.wdata = .ok i ∧
      accessEffect bus s t = (operandLoad s.txdata i t).accept i.opCode (firstPhase i)) ∨
    (∃ c, bus.writesCmd = true ∧ (c = errBusy ∨ c = errIllegal) ∧ accessEffect bus s t = t.reject c) ∨
    (accessEffect bus s t = t.acknowledge s.completionEdge bus.wdata) ∨
    (accessEffect bus s t = { t with txdata := bus.wdata }) ∨
    (accessEffect bus s t = { t with irqEn := bus.wdata.getLsbD 0 }) ∨
    accessEffect bus s t = t := by
  unfold accessEffect
  split
  · rename_i hw
    split
    · rename_i i hi
      unfold commandEffect
      split
      · exact .inl ⟨‹_›, i, hw, hi, rfl⟩
      · exact .inr (.inl ⟨errBusy, hw, .inl rfl, rfl⟩)
    · refine .inr (.inl ⟨_, hw, ?_, rfl⟩)
      split
      · exact .inr rfl
      · exact .inl rfl
  · split
    · split
      · exact .inr (.inr (.inl rfl))
      · exact .inr (.inr (.inr (.inl rfl)))
      · exact .inr (.inr (.inr (.inr (.inl rfl))))
      · exact .inr (.inr (.inr (.inr (.inr rfl))))
    · exact .inr (.inr (.inr (.inr (.inr rfl))))

@[simp] theorem operandLoad_cfg (v : Byte) (i : Instr) (t : State) : (operandLoad v i t).cfg = t.cfg := by
  cases i <;> rfl
@[simp] theorem operandLoad_cnt (v : Byte) (i : Instr) (t : State) : (operandLoad v i t).cnt = t.cnt := by
  cases i <;> rfl
@[simp] theorem operandLoad_phase (v : Byte) (i : Instr) (t : State) : (operandLoad v i t).phase = t.phase := by
  cases i <;> rfl
@[simp] theorem operandLoad_op (v : Byte) (i : Instr) (t : State) : (operandLoad v i t).op = t.op := by
  cases i <;> rfl
@[simp] theorem operandLoad_bitidx (v : Byte) (i : Instr) (t : State) : (operandLoad v i t).bitidx = t.bitidx := by
  cases i <;> rfl
@[simp] theorem operandLoad_presS (v : Byte) (i : Instr) (t : State) : (operandLoad v i t).presS = t.presS := by
  cases i <;> rfl
@[simp] theorem operandLoad_sync (v : Byte) (i : Instr) (t : State) : (operandLoad v i t).sync = t.sync := by
  cases i <;> rfl
@[simp] theorem operandLoad_done (v : Byte) (i : Instr) (t : State) : (operandLoad v i t).done = t.done := by
  cases i <;> rfl
@[simp] theorem operandLoad_present (v : Byte) (i : Instr) (t : State) : (operandLoad v i t).present = t.present := by
  cases i <;> rfl
@[simp] theorem operandLoad_cmderr (v : Byte) (i : Instr) (t : State) : (operandLoad v i t).cmderr = t.cmderr := by
  cases i <;> rfl
@[simp] theorem operandLoad_errcode (v : Byte) (i : Instr) (t : State) : (operandLoad v i t).errcode = t.errcode := by
  cases i <;> rfl
@[simp] theorem operandLoad_txdata (v : Byte) (i : Instr) (t : State) : (operandLoad v i t).txdata = t.txdata := by
  cases i <;> rfl
@[simp] theorem operandLoad_rxdata (v : Byte) (i : Instr) (t : State) : (operandLoad v i t).rxdata = t.rxdata := by
  cases i <;> rfl
@[simp] theorem operandLoad_irqEn (v : Byte) (i : Instr) (t : State) : (operandLoad v i t).irqEn = t.irqEn := by
  cases i <;> rfl
@[simp] theorem operandLoad_launched (v : Byte) (i : Instr) (t : State) : (operandLoad v i t).launched = t.launched := by
  cases i <;> rfl
@[simp] theorem operandLoad_host (v : Byte) (i : Instr) (t : State) : (operandLoad v i t).host = t.host := by
  cases i <;> rfl
@[simp] theorem operandLoad_line (v : Byte) (i : Instr) (t : State) : (operandLoad v i t).line = t.line := by
  cases i <;> rfl
@[simp] theorem operandLoad_cycle (v : Byte) (i : Instr) (t : State) : (operandLoad v i t).cycle = t.cycle := by
  cases i <;> rfl

/-- No access of any kind touches these. -/
theorem accessEffect_frame (bus : Bus) (s t : State) :
    (accessEffect bus s t).cfg = t.cfg ∧ (accessEffect bus s t).presS = t.presS ∧
    (accessEffect bus s t).sync = t.sync ∧ (accessEffect bus s t).present = t.present ∧
    (accessEffect bus s t).rxdata = t.rxdata ∧ (accessEffect bus s t).launched = t.launched ∧
    (accessEffect bus s t).host = t.host ∧ (accessEffect bus s t).line = t.line ∧
    (accessEffect bus s t).cycle = t.cycle := by
  obtain ⟨-, i, -, -, h⟩ | ⟨c, -, -, h⟩ | h | h | h | h := accessEffect_cases bus s t <;> rw [h] <;> simp

/-- While a command is in progress no access touches its machinery (20_memory.md R56), and DONE is touched by a W1C
only. -/
theorem accessEffect_busy (bus : Bus) {s : State} (t : State) (hb : s.phase ≠ .idle) :
    (accessEffect bus s t).phase = t.phase ∧ (accessEffect bus s t).cnt = t.cnt ∧
    (accessEffect bus s t).op = t.op ∧ (accessEffect bus s t).txbuf = t.txbuf ∧
    (accessEffect bus s t).rxbuf = t.rxbuf ∧ (accessEffect bus s t).bitidx = t.bitidx ∧
    ((accessEffect bus s t).done = t.done ∨ ((accessEffect bus s t).done = false ∧ s.completionEdge = false)) := by
  obtain ⟨hi, -⟩ | ⟨c, -, -, h⟩ | h | h | h | h := accessEffect_cases bus s t
  · exact absurd hi hb
  · rw [h]; simp
  · rw [h]
    simp only [State.acknowledge_phase, State.acknowledge_cnt, State.acknowledge_op, State.acknowledge_txbuf,
      State.acknowledge_rxbuf, State.acknowledge_bitidx, State.acknowledge_done, true_and]
    cases bus.wdata.getLsbD 1 <;> cases s.completionEdge <;> simp
  · rw [h]; simp
  · rw [h]; simp
  · rw [h]; simp

/-! The whole edge. -/

theorem thenEndCycle_next {o : Host.Outcome State Fault Refusal} {t : State} :
    thenEndCycle o = .next t ↔ ∃ u, o = .next u ∧ t = u.endCycle := by
  cases o <;> simp [thenEndCycle, eq_comm]

/-- Everything a step that answers a next state can have done. -/
theorem step_cases {s t : State} (h : step s = .next t) :
    s.cfg.wellFormed = true ∧
    ((s.rstNow = true ∧ t = s.resetEdge.endCycle) ∨
     (s.rstNow = false ∧ s.launched = true ∧ ∃ bus u, busOf s.cfg s.hostNow.access = .ok bus ∧
       fsmEdge s = some u ∧ t = (accessEffect bus s u).endCycle)) := by
  unfold step at h
  split at h
  · cases h
  · rename_i hc
    refine ⟨by simpa using hc, ?_⟩
    split at h
    · rename_i hr
      exact .inl ⟨hr, (Host.Outcome.next.inj h).symm⟩
    · rename_i hr
      split at h
      · cases h
      · rename_i hl
        split at h
        · cases h
        · rename_i bus hbus
          rw [thenEndCycle_next] at h
          obtain ⟨v, hv, rfl⟩ := h
          rw [busEdge_eq, onEdge_next] at hv
          obtain ⟨u, hu, rfl⟩ := hv
          exact .inr ⟨by simpa using hr, by simpa using hl, bus, u, hbus, hu, rfl⟩

/-- An ordinary edge answers a next state. -/
theorem step_of_ordinary {s u : State} {bus : Bus} (hc : s.cfg.wellFormed = true) (hr : s.rstNow = false)
    (hl : s.launched = true) (hb : busOf s.cfg s.hostNow.access = .ok bus) (hu : fsmEdge s = some u) :
    step s = .next (accessEffect bus s u).endCycle := by
  simp [step, hc, hr, hl, hb, busEdge_eq, onEdge_of_fsmEdge _ hu, thenEndCycle]

theorem step_of_reset {s : State} (hc : s.cfg.wellFormed = true) (hr : s.rstNow = true) :
    step s = .next s.resetEdge.endCycle := by
  simp [step, hc, hr]

end Sys2Proof.Machine
end

