-- ==== Sys2Proof/Laws/Run.lean ====
section
/-! SUPPORT. Runs of several edges: how a phase passes (40_bus_driver.md R71) whatever the host does meanwhile, short of
`rst` (R89). -/

namespace Sys2Proof

open Sys2Proof.Machine

@[simp] theorem runs_zero (s : State) : runs 0 s = .next s := rfl

theorem runs_succ {n : Nat} {s t : State} (h : step s = .next t) : runs (n + 1) s = runs n t := by
  simp [runs, Host.Core.run, core, h]

/-- Two runs one after the other. -/
theorem runs_add {m n : Nat} {s t : State} (h : runs m s = .next t) : runs (m + n) s = runs n t := by
  induction m generalizing s with
  | zero => simp only [runs_zero, Host.Outcome.next.injEq] at h; simp [h]
  | succ m ih =>
    rw [show m + 1 + n = (m + n) + 1 by omega]
    cases hs : step s with
    | next u => rw [runs_succ hs] at h ⊢; exact ih h
    | fault r => simp [runs, Host.Core.run, core, hs] at h
    | refused r => simp [runs, Host.Core.run, core, hs] at h

theorem driveTrace_succ {n : Nat} {s t : State} (h : step s = .next t) :
    driveTrace (n + 1) s = s.owOe :: driveTrace n t := by
  simp [driveTrace, h]

theorem driveTrace_add {m n : Nat} {s t : State} (h : runs m s = .next t) :
    driveTrace (m + n) s = driveTrace m s ++ driveTrace n t := by
  induction m generalizing s with
  | zero => simp only [runs_zero, Host.Outcome.next.injEq] at h; simp [driveTrace, h]
  | succ m ih =>
    rw [show m + 1 + n = (m + n) + 1 by omega]
    cases hs : step s with
    | next u => rw [runs_succ hs] at h; rw [driveTrace_succ hs, driveTrace_succ hs, ih h]; rfl
    | fault r => simp [runs, Host.Core.run, core, hs] at h
    | refused r => simp [runs, Host.Core.run, core, hs] at h

/-! Hosts that leave a command alone. -/

theorem busOf_noAccess (c : Config) : busOf c .noAccess = .ok noBus := rfl

theorem undisturbed_mono {m n : Nat} {s : State} (h : undisturbed n s) (hm : m ≤ n) : undisturbed m s := by
  intro x hx
  exact h x (List.take_subset_take_left _ hm hx)

theorem undisturbed_now {n : Nat} {s : State} (h : undisturbed (n + 1) s) :
    s.rstNow = false ∧ ∃ bus, busOf s.cfg s.hostNow.access = .ok bus := by
  cases hh : s.host with
  | nil => simp [State.rstNow, State.hostNow, hh, busOf_noAccess]
  | cons x xs =>
    have hx := h x (by simp [hh])
    simpa [State.rstNow, State.hostNow, hh, HostCycle.ordinary] using hx

theorem undisturbed_tail {n : Nat} {s t : State} (h : undisturbed (n + 1) s) (hc : t.cfg = s.cfg)
    (hh : t.host = s.host.tail) : undisturbed n t := by
  intro x hx
  rw [hc]
  rw [hh] at hx
  cases hs : s.host with
  | nil => simp [hs] at hx
  | cons y ys => exact h x (by simp [hs] at hx ⊢; exact .inr hx)

/-- The part of the state a command in progress keeps to itself. -/
structure SameCommand (u t : State) : Prop where
  cfg : t.cfg = u.cfg
  phase : t.phase = u.phase
  cnt : t.cnt = u.cnt
  op : t.op = u.op
  txbuf : t.txbuf = u.txbuf
  rxbuf : t.rxbuf = u.rxbuf
  bitidx : t.bitidx = u.bitidx
  presS : t.presS = u.presS
  present : t.present = u.present
  rxdata : t.rxdata = u.rxdata
  launched : t.launched = u.launched
  sync : t.sync = u.sync

/-- The requirements of an ordinary edge, kept by every ordinary edge. -/
structure Running (n : Nat) (s : State) : Prop where
  config : s.cfg.wellFormed = true
  launched : s.launched = true
  host : undisturbed n s

theorem Running.owOe {n : Nat} {s : State} (h : Running (n + 1) s) : s.owOe = s.drives := by
  simp [State.owOe, (undisturbed_now h.host).1]

/-- One edge of a command in progress: the FSM's part alone, whatever the host does (R56, R89). -/
theorem step_busy {n : Nat} {s u : State} (hr : Running (n + 1) s) (hb : s.phase ≠ .idle) (hu : fsmEdge s = some u) :
    ∃ t, step s = .next t ∧ SameCommand u t ∧ Running n t ∧ (u.done = false → t.done = false) ∧
      (s.completionEdge = true → t.done = u.done) ∧ t.line = s.line.tail ∧ t.cycle = s.cycle + 1 := by
  obtain ⟨hrst, bus, hbus⟩ := undisturbed_now hr.host
  have hfr := fsmEdge_frame hu
  have ha := accessEffect_frame bus s u
  have hbz := accessEffect_busy bus u hb
  refine ⟨_, step_of_ordinary hr.config hrst hr.launched hbus hu, ?_, ?_, ?_, ?_, ?_, ?_⟩
  · constructor <;> simp [ha, hbz]
  · refine ⟨by simpa [ha, hfr] using hr.config, by simpa [ha, hfr] using hr.launched, ?_⟩
    exact undisturbed_tail hr.host (by simp [ha, hfr]) (by simp [ha, hfr])
  · intro h; rcases hbz.2.2.2.2.2.2 with h' | h' <;> simp [h', h]
  · intro h; rcases hbz.2.2.2.2.2.2 with h' | h' <;> simp_all
  · simp [ha, hfr]
  · simp [ha, hfr]

/-- The cycles of a phase but its last one: `cnt` runs down to 0, nothing else moves, and the drive stays (R71). -/
theorem phase_passes {n k : Nat} {s : State} (hr : Running (n + k) s) (hb : s.phase ≠ .idle) (hd : s.done = false)
    (hc : s.cnt = n) :
    ∃ t, runs n s = .next t ∧ t.cfg = s.cfg ∧ t.phase = s.phase ∧ t.cnt = 0 ∧ t.op = s.op ∧ t.txbuf = s.txbuf ∧
      t.rxbuf = s.rxbuf ∧ t.bitidx = s.bitidx ∧ t.presS = s.presS ∧ t.present = s.present ∧ t.rxdata = s.rxdata ∧
      t.done = false ∧ Running k t ∧ driveTrace n s = List.replicate n s.drives := by
  induction n generalizing s with
  | zero => exact ⟨s, rfl, rfl, rfl, hc, rfl, rfl, rfl, rfl, rfl, rfl, rfl, hd, by simpa using hr, rfl⟩
  | succ n ih =>
    rw [show n + 1 + k = (n + k) + 1 by omega] at hr
    have hu := fsmEdge_count hb (by omega : 0 < s.cnt)
    obtain ⟨t, hs, hsame, hrun, hdone, -⟩ := step_busy hr hb hu
    have hph : t.phase = s.phase := by simp [hsame.phase]
    obtain ⟨v, hv, h⟩ := ih hrun (by rw [hph]; exact hb) (hdone (by simpa using hd)) (by simp [hsame.cnt, hc])
    have hdr : t.drives = s.drives := by simp [State.drives, State.txBit, hsame.phase, hsame.txbuf, hsame.bitidx]
    refine ⟨v, by rw [runs_succ hs]; exact hv, ?_⟩
    simp only [hsame.cfg, hsame.phase, hsame.op, hsame.txbuf, hsame.rxbuf, hsame.bitidx, hsame.presS, hsame.present,
      hsame.rxdata, State.countDown_cfg, State.shiftSync_cfg, State.countDown_phase, State.shiftSync_phase,
      State.countDown_op, State.shiftSync_op, State.countDown_txbuf, State.shiftSync_txbuf, State.countDown_rxbuf,
      State.shiftSync_rxbuf, State.countDown_bitidx, State.shiftSync_bitidx, State.countDown_presS,
      State.shiftSync_presS, State.countDown_present, State.shiftSync_present, State.countDown_rxdata,
      State.shiftSync_rxdata, hdr] at h
    obtain ⟨h1, h2, h3, h4, h5, h6, h7, h8, h9, h10, h11, h12, h13⟩ := h
    refine ⟨h1, h2, h3, h4, h5, h6, h7, h8, h9, h10, h11, h12, ?_⟩
    rw [driveTrace_succ hs, h13, hr.owOe]
    rfl

/-- The edge that ends a phase: the exit action and the next phase (R72). -/
theorem phase_ends {k : Nat} {s : State} {p : Phase} (hr : Running (k + 1) s) (hb : s.phase ≠ .idle) (hc : s.cnt = 0)
    (hp : nextPhase s.op s.bitidx s.phase = some p) :
    ∃ t, step s = .next t ∧ SameCommand ((s.shiftSync.exitAction s.lineSync p).enter p) t ∧ Running k t ∧
      driveTrace 1 s = [s.drives] ∧
      ((p ≠ .idle ∧ s.done = false ∧ completes s p = false → t.done = false) ∧
       (p = .idle ∧ completes s p = true → t.done = true)) := by
  obtain ⟨t, hs, hsame, hrun, hdone, hcomp, -⟩ := step_busy hr hb (fsmEdge_exit hb hc hp)
  refine ⟨t, hs, hsame, hrun, by rw [driveTrace_succ hs, hr.owOe]; rfl, ?_, ?_⟩
  · rintro ⟨-, hd, hcm⟩
    exact hdone (by simp only [State.enter_done, State.exitAction_done, State.shiftSync_done, completes_shiftSync, hcm, hd]; rfl)
  · rintro ⟨rfl, hcm⟩
    rw [hcomp (by simp [State.completionEdge, hb, hc, hp])]
    simp only [State.enter_done, State.exitAction_done, completes_shiftSync, hcm, if_true]

/-- A whole phase from its entry: `N(Dur)` edges, one sample at the last of them, one drive level (R71, R72). The state
`m` is the one in the phase's last cycle. -/
theorem phase_whole {k : Nat} {s : State} {p : Phase} (hr : Running (phaseCycles s.cfg s.phase + k) s)
    (hb : s.phase ≠ .idle) (hd : s.done = false) (hc : s.cnt = phaseCycles s.cfg s.phase - 1)
    (hpos : 0 < phaseCycles s.cfg s.phase) (hp : nextPhase s.op s.bitidx s.phase = some p) :
    ∃ m t, runs (phaseCycles s.cfg s.phase - 1) s = .next m ∧ runs (phaseCycles s.cfg s.phase) s = .next t ∧
      Running k t ∧ driveTrace (phaseCycles s.cfg s.phase) s = List.replicate (phaseCycles s.cfg s.phase) s.drives ∧
      t.cfg = s.cfg ∧ t.phase = p ∧ t.cnt = phaseCycles s.cfg p - 1 ∧ t.op = s.op ∧ t.txbuf = s.txbuf ∧
      t.rxbuf = (if s.phase = .rwait then placeBit s.rxbuf s.bitidx m.lineSync else s.rxbuf) ∧
      t.bitidx = (if s.phase = .recov ∧ p = .init then s.bitidx + 1#3 else s.bitidx) ∧
      t.presS = (if s.phase = .rstWait then !m.lineSync else s.presS) ∧
      t.present = (if completes s p && isResetOp s.op then s.presS else s.present) ∧
      t.rxdata = (if completes s p && isReadOp s.op then s.rxbuf else s.rxdata) ∧
      (p ≠ .idle → completes s p = false → t.done = false) ∧ (p = .idle → completes s p = true → t.done = true) := by
  obtain ⟨n, hn⟩ : ∃ n, phaseCycles s.cfg s.phase = n + 1 := ⟨_, (Nat.succ_pred_eq_of_pos hpos).symm⟩
  rw [hn] at hr hc ⊢
  rw [show n + 1 + k = n + (k + 1) by omega] at hr
  obtain ⟨m, hm, hcfg, hph, hcnt, hop, htx, hrx, hbi, hps, hpr, hrd, hdn, hrun, htr⟩ := phase_passes hr hb hd hc
  obtain ⟨t, ht, hsame, hrun', htr', hdn1, hdn2⟩ :=
    phase_ends hrun (by rw [hph]; exact hb) hcnt (by rw [hop, hbi, hph]; exact hp)
  have hcp : completes m p = completes s p := by simp [completes, hph]
  have hdr : m.drives = s.drives := by simp [State.drives, State.txBit, hph, htx, hbi]
  refine ⟨m, t, hm, by rw [runs_add hm, runs_succ ht, runs_zero], hrun', ?_, ?_, ?_, ?_, ?_, ?_, ?_, ?_, ?_, ?_, ?_, ?_, ?_⟩
  · rw [driveTrace_add hm, htr, htr', hdr, List.replicate_succ']
  · simp [hsame.cfg, hcfg]
  · simp [hsame.phase]
  · simp [hsame.cnt, hcfg]
  · simp [hsame.op, hop]
  · simp [hsame.txbuf, htx]
  · simp [hsame.rxbuf, hph, hrx, hbi]
  · simp [hsame.bitidx, hph, hbi]
  · simp [hsame.presS, hph, hps]
  · simp [hsame.present, hcp, hop, hps, hpr]
  · simp [hsame.rxdata, hcp, hop, hrx, hrd]
  · exact fun h1 h2 => hdn1 ⟨h1, hdn, by rw [hcp]; exact h2⟩
  · exact fun h1 h2 => hdn2 ⟨h1, by rw [hcp]; exact h2⟩

end Sys2Proof
end

