-- ==== Sys2Proof/Laws/Slots.lean ====
section
/-! SUPPORT. One slot, and the byte commands' chain of slots: each phase of a slot by `phase_whole`, put together once
(40_bus_driver.md R81, R86; 41_byte_framer.md R91). -/

namespace Sys2Proof

open Sys2Proof.Machine

theorem cycles_add (c : Config) (a b : Nat) : c.cycles a + c.cycles b = c.cycles (a + b) := by
  simp [Config.cycles, Nat.add_mul]

theorem cycles_pos {c : Config} {t : Nat} (hc : c.wellFormed = true) (ht : 1 ≤ t) : 0 < c.cycles t := by
  have : 1 ≤ c.cyclesPerUs := by simp [Config.wellFormed] at hc; omega
  exact Nat.mul_pos ht this

/-- The lower bounds of 00_scope.md R8. -/
theorem wellFormed_bounds {c : Config} (hc : c.wellFormed = true) :
    1 ≤ c.tRstl ∧ 1 ≤ c.tMsp ∧ 1 ≤ c.tRstrem ∧ 1 ≤ c.tInit ∧ c.tInit + 1 ≤ c.tSlot ∧ 1 ≤ c.tRds ∧ 1 ≤ c.tRpad ∧
      1 ≤ c.tRec ∧ 1 ≤ c.cyclesPerUs := by
  simp [Config.wellFormed] at hc
  omega

/-- Every phase but IDLE lasts at least one cycle (R71). -/
theorem phaseCycles_pos {c : Config} {p : Phase} (hc : c.wellFormed = true) (hp : p ≠ .idle) : 0 < phaseCycles c p := by
  have hb := wellFormed_bounds hc
  apply cycles_pos hc
  cases p <;> simp [phaseUs] at hp ⊢ <;> omega

theorem Running.mono {m n : Nat} {s : State} (h : Running n s) (hm : m ≤ n) : Running m s :=
  ⟨h.config, h.launched, undisturbed_mono h.host hm⟩

/-- What a command in progress has, at a phase's entry, from the previous phase. -/
structure Entered (p : Phase) (k : Nat) (s : State) : Prop where
  phase : s.phase = p
  cnt : s.cnt = phaseCycles s.cfg p - 1
  done : s.done = false
  running : Running k s

/-- What stays put through a write slot, and through a read slot but for `rxbuf`. -/
structure Held (s t : State) : Prop where
  cfg : t.cfg = s.cfg
  op : t.op = s.op
  txbuf : t.txbuf = s.txbuf
  presS : t.presS = s.presS
  present : t.present = s.present

/-- One inner phase: `Entered` the next, with everything but the sampled buffers held. -/
theorem phase_inner {k : Nat} {s : State} {p q : Phase} (h : Entered p (phaseCycles s.cfg p + k) s) (hp : p ≠ .idle)
    (hq : q ≠ .idle) (hr : p ≠ .rstRem) (hc : p = .recov → q = .init) (hn : nextPhase s.op s.bitidx p = some q) :
    ∃ m t, runs (phaseCycles s.cfg p - 1) s = .next m ∧ runs (phaseCycles s.cfg p) s = .next t ∧ Entered q k t ∧
      driveTrace (phaseCycles s.cfg p) s = List.replicate (phaseCycles s.cfg p) s.drives ∧
      t.cfg = s.cfg ∧ t.op = s.op ∧ t.txbuf = s.txbuf ∧
      t.rxbuf = (if p = .rwait then placeBit s.rxbuf s.bitidx m.lineSync else s.rxbuf) ∧
      t.bitidx = (if p = .recov then s.bitidx + 1#3 else s.bitidx) ∧
      t.presS = (if p = .rstWait then !m.lineSync else s.presS) ∧ t.present = s.present ∧ t.rxdata = s.rxdata := by
  obtain ⟨rfl, hcnt, hd, hrun⟩ := h
  have hcm : completes s q = false := by
    unfold completes
    by_cases h1 : s.phase = .recov
    · simp [hr, hc h1]
    · simp [hr, h1]
  obtain ⟨m, t, h1, h2, h3, h4, h5, h6, h7, h8, h9, h10, h11, h12, h13, h14, h15, -⟩ :=
    phase_whole hrun hp hd hcnt (phaseCycles_pos hrun.config hp) hn
  refine ⟨m, t, h1, h2, ⟨h6, by rw [h5, h7], h15 hq hcm, h3⟩, h4, h5, h8, h9, h10, ?_, h12, ?_, ?_⟩
  · rw [h11]
    by_cases h : s.phase = .recov
    · simp [h, hc h]
    · simp [h]
  · rw [h13, hcm]; simp
  · rw [h14, hcm]; simp

/-- The last phase of a command: `Complete()` (R73). -/
theorem phase_last {k : Nat} {s : State} {p : Phase} (h : Entered p (phaseCycles s.cfg p + k) s)
    (hp : p = .rstRem ∨ p = .recov) (hn : nextPhase s.op s.bitidx p = some .idle) :
    ∃ t, runs (phaseCycles s.cfg p) s = .next t ∧ Running k t ∧ t.phase = .idle ∧ t.done = true ∧
      driveTrace (phaseCycles s.cfg p) s = List.replicate (phaseCycles s.cfg p) false ∧
      t.cfg = s.cfg ∧ t.op = s.op ∧ t.txbuf = s.txbuf ∧ t.rxbuf = s.rxbuf ∧ t.bitidx = s.bitidx ∧ t.presS = s.presS ∧
      t.present = (if isResetOp s.op then s.presS else s.present) ∧
      t.rxdata = (if isReadOp s.op then s.rxbuf else s.rxdata) := by
  obtain ⟨rfl, hcnt, hd, hrun⟩ := h
  have hp' : s.phase ≠ .idle := by rcases hp with h | h <;> simp [h]
  have hcm : completes s .idle = true := by rcases hp with h | h <;> simp [completes, h]
  have hdr : s.drives = false := by rcases hp with h | h <;> simp [State.drives, h]
  obtain ⟨m, t, -, h2, h3, h4, h5, h6, h7, h8, h9, h10, h11, h12, h13, h14, -, h16⟩ :=
    phase_whole hrun hp' hd hcnt (phaseCycles_pos hrun.config hp') hn
  refine ⟨t, h2, h3, h6, h16 rfl hcm, by rw [h4, hdr], h5, h8, h9, ?_, ?_, ?_, ?_, ?_⟩
  · rw [h10]; rcases hp with h | h <;> simp [h]
  · rw [h11]; simp
  · rw [h12]; rcases hp with h | h <;> simp [h]
  · rw [h13, hcm]; simp
  · rw [h14, hcm]; simp

/-- The level a write slot's waveform takes from the bit: `writeSlot` cycle by cycle. -/
theorem expand_writeSlot (c : Config) (b : Bool) (hc : c.wellFormed = true) :
    expand (writeSlot c b) = List.replicate (c.cycles c.tInit) true ++
      List.replicate (c.cycles (c.tSlot - c.tInit)) (!b) ++ List.replicate (c.cycles c.tRec) false := by
  have h : c.cycles c.tInit + c.cycles (c.tSlot - c.tInit) = c.cycles c.tSlot := by
    rw [cycles_add]; congr 1; have := wellFormed_bounds hc; omega
  cases b
  · simp [expand, writeSlot, ← h]
  · simp [expand, writeSlot]

theorem expand_readSlot (c : Config) :
    expand (readSlot c) = List.replicate (c.cycles c.tInit) true ++ List.replicate (c.cycles c.tRds) false ++
      List.replicate (c.cycles c.tRpad) false ++ List.replicate (c.cycles c.tRec) false := by
  simp [expand, readSlot, Nat.add_assoc]

theorem writeSlotCycles_eq {c : Config} (hc : c.wellFormed = true) :
    writeSlotCycles c = phaseCycles c .init + (phaseCycles c .wbody + phaseCycles c .recov) := by
  have := wellFormed_bounds hc
  simp only [writeSlotCycles, phaseCycles, phaseUs, cycles_add]
  congr 1; omega

theorem readSlotCycles_eq (c : Config) :
    readSlotCycles c = phaseCycles c .init + (phaseCycles c .rwait + (phaseCycles c .rpad + phaseCycles c .recov)) := by
  simp only [readSlotCycles, phaseCycles, phaseUs, cycles_add]
  congr 1; omega

/-- The body of a write slot, INIT and WBODY, up to the entry of REC. -/
theorem write_slot_body {k : Nat} {s : State}
    (h : Entered .init (phaseCycles s.cfg .init + (phaseCycles s.cfg .wbody + k)) s) (hw : isWriteOp s.op = true) :
    ∃ t, runs (phaseCycles s.cfg .init + phaseCycles s.cfg .wbody) s = .next t ∧ Entered .recov k t ∧ Held s t ∧
      t.bitidx = s.bitidx ∧ t.rxbuf = s.rxbuf ∧ t.rxdata = s.rxdata ∧
      driveTrace (phaseCycles s.cfg .init + phaseCycles s.cfg .wbody) s =
        List.replicate (phaseCycles s.cfg .init) true ++ List.replicate (phaseCycles s.cfg .wbody) (!s.txBit) := by
  obtain ⟨m0, t, -, h1, h2, h3, h4, h5, h6, h7, h8, h9, h10, h11⟩ :=
    phase_inner (q := .wbody) h (by decide) (by decide) (by decide) (by decide) (by simp [nextPhase, hw])
  simp only [reduceCtorEq, if_false] at h7 h8 h9
  rw [← h4] at h2
  obtain ⟨m1, v, -, i1, i2, i3, i4, i5, i6, i7, i8, i9, i10, i11⟩ :=
    phase_inner (q := .recov) h2 (by decide) (by decide) (by decide) (by decide) (by simp [nextPhase])
  simp only [reduceCtorEq, if_false] at i7 i8 i9
  rw [h4] at i1 i3
  have hd1 : s.drives = true := by simp [State.drives, h.phase]
  have hd2 : t.drives = !s.txBit := by simp [State.drives, h2.phase, State.txBit, h6, h8]
  refine ⟨v, by rw [runs_add h1, i1], i2, ⟨by rw [i4, h4], by rw [i5, h5], by rw [i6, h6], by rw [i9, h9], by rw [i10, h10]⟩,
    by rw [i8, h8], by rw [i7, h7], by rw [i11, h11], ?_⟩
  rw [driveTrace_add h1, h3, i3, hd1, hd2]

/-- The body of a read slot, INIT, RWAIT and RPAD, up to the entry of REC. The state `m` is the one in RWAIT's last
cycle, `N(T_INIT) + N(T_RDS) − 1` cycles into the slot: its `line_sync` is the sample (R84). -/
theorem read_slot_body {k : Nat} {s : State}
    (h : Entered .init (phaseCycles s.cfg .init + (phaseCycles s.cfg .rwait + (phaseCycles s.cfg .rpad + k))) s)
    (hw : isReadOp s.op = true) :
    ∃ m t, runs (phaseCycles s.cfg .init + (phaseCycles s.cfg .rwait - 1)) s = .next m ∧
      runs (phaseCycles s.cfg .init + (phaseCycles s.cfg .rwait + phaseCycles s.cfg .rpad)) s = .next t ∧
      Entered .recov k t ∧ Held s t ∧ t.bitidx = s.bitidx ∧ t.rxbuf = placeBit s.rxbuf s.bitidx m.lineSync ∧
      t.rxdata = s.rxdata ∧
      driveTrace (phaseCycles s.cfg .init + (phaseCycles s.cfg .rwait + phaseCycles s.cfg .rpad)) s =
        List.replicate (phaseCycles s.cfg .init) true ++ (List.replicate (phaseCycles s.cfg .rwait) false ++
          List.replicate (phaseCycles s.cfg .rpad) false) := by
  have hnw : isWriteOp s.op = false := by
    revert hw; generalize s.op = o; revert o; decide
  obtain ⟨m0, t, -, h1, h2, h3, h4, h5, h6, h7, h8, h9, h10, h11⟩ :=
    phase_inner (q := .rwait) h (by decide) (by decide) (by decide) (by decide) (by simp [nextPhase, hw, hnw])
  simp only [reduceCtorEq, if_false] at h7 h8 h9
  rw [← h4] at h2
  obtain ⟨m, v, i0, i1, i2, i3, i4, i5, i6, i7, i8, i9, i10, i11⟩ :=
    phase_inner (q := .rpad) h2 (by decide) (by decide) (by decide) (by decide) (by simp [nextPhase])
  simp only [reduceCtorEq, if_false, if_true] at i7 i8 i9
  rw [← i4] at i2
  obtain ⟨m2, w, -, j1, j2, j3, j4, j5, j6, j7, j8, j9, j10, j11⟩ :=
    phase_inner (q := .recov) (by rw [i4, h4]; rw [i4, h4] at i2; exact i2) (by decide) (by decide) (by decide) (by decide)
      (by simp [nextPhase])
  simp only [reduceCtorEq, if_false] at j7 j8 j9
  rw [h4] at i0 i1 i3
  rw [i4, h4] at j1 j3
  have hd1 : s.drives = true := by simp [State.drives, h.phase]
  have hd2 : t.drives = false := by simp [State.drives, h2.phase]
  have hd3 : v.drives = false := by simp [State.drives, i2.phase]
  refine ⟨m, w, by rw [runs_add h1, i0], by rw [runs_add h1, runs_add i1, j1], j2,
    ⟨by rw [j4, i4, h4], by rw [j5, i5, h5], by rw [j6, i6, h6], by rw [j9, i9, h9], by rw [j10, i10, h10]⟩,
    by rw [j8, i8, h8], by rw [j7, i7, h7, h8], by rw [j11, i11, h11], ?_⟩
  rw [driveTrace_add h1, driveTrace_add i1, h3, i3, j3, hd1, hd2, hd3]

end Sys2Proof
end

