-- ==== Sys2Proof/Laws/Commands.lean ====
section
/-! SUPPORT. The whole commands, from the accepting edge to the completion edge (40_bus_driver.md R75 to R88,
41_byte_framer.md R92 to R97), one lemma each. -/

namespace Sys2Proof

open Sys2Proof.Machine

/-- A run that ends well passes through a state at every earlier edge. -/
theorem runs_of_le {n k : Nat} {s c : State} (h : runs n s = .next c) (hk : k ≤ n) : ∃ m, runs k s = .next m := by
  induction k generalizing n s with
  | zero => exact ⟨s, rfl⟩
  | succ k ih =>
    obtain ⟨n, rfl⟩ : ∃ j, n = j + 1 := ⟨n - 1, by omega⟩
    cases hs : step s with
    | next u => rw [runs_succ hs] at h ⊢; exact ih h (by omega)
    | fault r => simp [runs, Host.Core.run, core, hs] at h
    | refused r => simp [runs, Host.Core.run, core, hs] at h

/-- The accepting edge puts a command into its first phase, and touches no committed result. -/
theorem exec_enters {n : Nat} {s : State} (i : Instr) (hr : Ready s) (hi : s.phase = .idle) (hu : undisturbed n s.endCycle) :
    ∃ t, exec i s = .next t ∧ Entered (firstPhase i) n t.endCycle ∧ t.endCycle.cfg = s.cfg ∧ t.endCycle.op = i.opCode ∧
      t.endCycle.bitidx = 0#3 ∧ t.endCycle.present = s.present ∧ t.endCycle.rxdata = s.rxdata ∧
      t.endCycle.sync.length = s.sync.length ∧
      t.endCycle.txbuf = (operandLoad s.txdata i s).txbuf ∧ t.endCycle.rxbuf = (operandLoad s.txdata i s).rxbuf := by
  refine ⟨commandEffect i s s.shiftSync, by rw [exec_eq, onEdge_of_fsmEdge _ (fsmEdge_idle hi)], ?_⟩
  simp only [commandEffect, hi, if_true]
  refine ⟨⟨by simp, by simp, by simp, ⟨by simpa using hr.1, by simpa using hr.2, ?_⟩⟩, by simp, by simp, by simp,
    by simp, by simp, by simp, ?_, ?_⟩
  · intro h hh; simpa using hu h (by simpa using hh)
  · cases i <;> simp [operandLoad]
  · cases i <;> simp [operandLoad]

/-- OW_RESET from its entry (40_bus_driver.md R75 to R79): `m` is the cycle the presence sample is taken in. -/
theorem reset_run {s : State} (h : Entered .rstLow (durationCycles s.cfg .owReset) s) (hop : s.op = 1#3) :
    ∃ m c, runs (s.cfg.cycles (s.cfg.tRstl + s.cfg.tMsp) - 1) s = .next m ∧
      runs (durationCycles s.cfg .owReset) s = .next c ∧
      c.phase = .idle ∧ c.done = true ∧ c.present = !m.lineSync ∧ c.rxdata = s.rxdata ∧
      driveTrace (durationCycles s.cfg .owReset) s = expand (waveform s.cfg s.txdata .owReset) := by
  have hD : durationCycles s.cfg .owReset =
      phaseCycles s.cfg .rstLow + (phaseCycles s.cfg .rstWait + (phaseCycles s.cfg .rstRem + 0)) := by
    simp only [durationCycles, phaseCycles, phaseUs, cycles_add, Nat.add_zero]; congr 1; omega
  have hN : s.cfg.cycles (s.cfg.tRstl + s.cfg.tMsp) - 1 = phaseCycles s.cfg .rstLow + (phaseCycles s.cfg .rstWait - 1) := by
    have := phaseCycles_pos (p := .rstWait) h.running.config (by decide)
    simp only [phaseCycles, phaseUs, ← cycles_add] at *; omega
  rw [hD] at h ⊢
  obtain ⟨m0, t, -, h1, h2, h3, h4, h5, h6, h7, h8, h9, h10, h11⟩ :=
    phase_inner (q := .rstWait) h (by decide) (by decide) (by decide) (by decide) (by simp [nextPhase])
  rw [← h4] at h2
  obtain ⟨m, v, i0, i1, i2, i3, i4, i5, i6, i7, i8, i9, i10, i11⟩ :=
    phase_inner (q := .rstRem) h2 (by decide) (by decide) (by decide) (by decide) (by simp [nextPhase])
  rw [← i4] at i2
  obtain ⟨c, j1, -, j2, j3, j4, j5, j6, j7, j8, j9, j10, j11, j12⟩ := phase_last i2 (by decide) (by simp [nextPhase])
  rw [h4] at i0 i1 i3
  rw [i4, h4] at j1 j4
  have hd1 : s.drives = true := by simp [State.drives, h.phase]
  have hd2 : t.drives = false := by simp [State.drives, h2.phase]
  refine ⟨m, c, by rw [hN, runs_add h1, i0], by rw [runs_add h1, runs_add i1, Nat.add_zero, j1], j2, j3, ?_, ?_, ?_⟩
  · rw [j11, i5, h5, hop, i9]; simp [isResetOp]
  · rw [j12, i5, h5, hop, i11, h11]; simp [isReadOp]
  · rw [driveTrace_add h1, driveTrace_add i1, Nat.add_zero, h3, i3, j4, hd1, hd2]
    simp [expand, waveform, phaseCycles, phaseUs]

/-- The one slot of OW_WRITE_BIT (40_bus_driver.md R80 to R82). -/
theorem write_bit_slot {s : State} (h : Entered .init (writeSlotCycles s.cfg) s) (hop : s.op = 2#3) (hb : s.bitidx = 0#3):
    ∃ c, runs (writeSlotCycles s.cfg) s = .next c ∧ c.phase = .idle ∧ c.done = true ∧ c.present = s.present ∧
      c.rxdata = s.rxdata ∧ driveTrace (writeSlotCycles s.cfg) s = expand (writeSlot s.cfg (s.txbuf.getLsbD 0)) := by
    have hwf := h.running.config
    rw [writeSlotCycles_eq hwf] at h ⊢
    obtain ⟨t, h1, h2, h3, h4, h5, h6, h7⟩ := write_slot_body (k := phaseCycles s.cfg .recov + 0) h (by rw [hop]; decide)
    rw [← h3.cfg] at h2
    obtain ⟨c, j1, jr, j2, j3, j4, j5, j6, j7, j8, j9, j10, j11, j12⟩ := phase_last h2 (by decide)
      (by rw [h3.op, h4, hop]; simp [nextPhase, isByteOp])
    rw [h3.cfg] at j1 j4
    refine ⟨c, by rw [← Nat.add_assoc, runs_add h1, j1], j2, j3, ?_, ?_, ?_⟩
    · rw [j11, h3.op, hop, h3.present]; simp [isResetOp]
    · rw [j12, h3.op, hop, h6]; simp [isReadOp]
    · rw [← Nat.add_assoc, driveTrace_add h1, h7, j4]
      simp [expand_writeSlot _ _ hwf, phaseCycles, phaseUs, State.txBit, hb]

/-- `rxbuf[bitidx] <- b` changes that one bit. -/
theorem getLsbD_placeBit (v : Byte) (i : BitVec 3) (b : Bool) (k : Nat) (hk : k < 8) :
    (placeBit v i b).getLsbD k = if k = i.toNat then b else v.getLsbD k := by
  have hi := i.isLt
  simp only [placeBit, BitVec.getLsbD_or, BitVec.getLsbD_and, BitVec.getLsbD_not, BitVec.getLsbD_shiftLeft,
    BitVec.getLsbD_setWidth, BitVec.getLsbD_ofBool, BitVec.getLsbD_one, hk, decide_true, Bool.true_and]
  by_cases h : k = i.toNat
  · simp [h]
  · by_cases h2 : k < i.toNat
    · simp [h, h2]
    · have : k - i.toNat ≠ 0 := by omega
      simp [h, h2, this]

/-- A read slot is its body and its recovery. -/
theorem read_slot_split (c : Config) (k : Nat) :
    phaseCycles c .init + (phaseCycles c .rwait + (phaseCycles c .rpad + k)) =
      phaseCycles c .init + (phaseCycles c .rwait + phaseCycles c .rpad) + k := by
  omega

/-- The cycle a read slot samples in, counted from the slot's first cycle (40_bus_driver.md R84). -/
theorem read_sample_cycle {c : Config} (hc : c.wellFormed = true) :
    c.cycles (c.tInit + c.tRds) - 1 = phaseCycles c .init + (phaseCycles c .rwait - 1) := by
  have := phaseCycles_pos (p := .rwait) hc (by decide)
  simp only [phaseCycles, phaseUs, ← cycles_add] at *; omega

/-- The one slot of OW_READ_BIT (40_bus_driver.md R83 to R87): `m` is the cycle the sample is taken in. -/
theorem read_bit_slot {s : State} (h : Entered .init (readSlotCycles s.cfg) s) (hop : s.op = 3#3) (hb : s.bitidx = 0#3):
    ∃ m c, runs (s.cfg.cycles (s.cfg.tInit + s.cfg.tRds) - 1) s = .next m ∧
      runs (readSlotCycles s.cfg) s = .next c ∧ c.phase = .idle ∧ c.done = true ∧ c.present = s.present ∧
      c.rxdata = placeBit s.rxbuf 0#3 m.lineSync ∧ driveTrace (readSlotCycles s.cfg) s = expand (readSlot s.cfg) := by
    have hwf := h.running.config
    have hN := read_sample_cycle hwf
    rw [readSlotCycles_eq] at h ⊢
    obtain ⟨m, t, h0, h1, h2, h3, h4, h5, h6, h7⟩ :=
      read_slot_body (k := phaseCycles s.cfg .recov + 0) h (by rw [hop]; decide)
    rw [← h3.cfg] at h2
    obtain ⟨c, j1, jr, j2, j3, j4, j5, j6, j7, j8, j9, j10, j11, j12⟩ := phase_last h2 (by decide)
      (by rw [h3.op, h4, hop]; simp [nextPhase, isByteOp])
    rw [h3.cfg] at j1 j4
    refine ⟨m, c, by rw [hN, h0], by rw [read_slot_split, runs_add h1, j1], j2, j3, ?_, ?_, ?_⟩
    · rw [j11, h3.op, hop, h3.present]; simp [isResetOp]
    · rw [j12, h3.op, hop, h5, hb]; simp [isReadOp]
    · rw [read_slot_split, driveTrace_add h1, h7, j4]
      simp [expand_readSlot, phaseCycles, phaseUs]

/-- The slots of OW_WRITE_BYTE from slot `bitidx` on, when `n` more follow (41_byte_framer.md R92, R94). -/
theorem write_byte_slots {n : Nat} {s : State} (h : Entered .init ((n + 1) * writeSlotCycles s.cfg) s)
    (hop : s.op = 4#3) (hn : s.bitidx.toNat + n = 7) :
    ∃ c, runs ((n + 1) * writeSlotCycles s.cfg) s = .next c ∧ c.phase = .idle ∧ c.done = true ∧ c.present = s.present ∧
      c.rxdata = s.rxdata ∧ c.cfg = s.cfg ∧ c.launched = true ∧
      driveTrace ((n + 1) * writeSlotCycles s.cfg) s =
        (List.range' s.bitidx.toNat (n + 1)).flatMap fun k => expand (writeSlot s.cfg (s.txbuf.getLsbD k)) := by
  have hwf := h.running.config
  induction n generalizing s with
  | zero =>
    rw [Nat.zero_add, Nat.one_mul, writeSlotCycles_eq hwf] at h ⊢
    obtain ⟨t, h1, h2, h3, h4, h5, h6, h7⟩ := write_slot_body (k := phaseCycles s.cfg .recov + 0) h (by rw [hop]; decide)
    rw [← h3.cfg] at h2
    obtain ⟨c, j1, jr, j2, j3, j4, j5, j6, j7, j8, j9, j10, j11, j12⟩ := phase_last h2 (by decide)
      (by rw [h3.op, h4, hop]; simp [nextPhase]; omega)
    rw [h3.cfg] at j1 j4
    refine ⟨c, by rw [← Nat.add_assoc, runs_add h1, j1], j2, j3, ?_, ?_, by rw [j5, h3.cfg], jr.launched, ?_⟩
    · rw [j11, h3.op, hop, h3.present]; simp [isResetOp]
    · rw [j12, h3.op, hop, h6]; simp [isReadOp]
    · rw [← Nat.add_assoc, driveTrace_add h1, h7, j4]
      simp [List.range'_succ, expand_writeSlot _ _ hwf, phaseCycles, phaseUs, State.txBit]
  | succ n ih =>
    have hL := writeSlotCycles_eq hwf
    have hD : (n + 1 + 1) * writeSlotCycles s.cfg =
        phaseCycles s.cfg .init + (phaseCycles s.cfg .wbody +
          (phaseCycles s.cfg .recov + (n + 1) * writeSlotCycles s.cfg)) := by
      rw [Nat.succ_mul, hL]; omega
    rw [hD] at h ⊢
    obtain ⟨t, h1, h2, h3, h4, h5, h6, h7⟩ := write_slot_body h (by rw [hop]; decide)
    rw [← h3.cfg] at h2
    obtain ⟨m1, v, -, i1, i2, i3, i4, i5, i6, i7, i8, i9, i10, i11⟩ :=
      phase_inner (q := .init) h2 (by decide) (by decide) (by decide) (by decide)
        (by rw [h3.op, h4, hop]; simp [nextPhase, isByteOp]; omega)
    simp only [if_true] at i8
    rw [h3.cfg] at i1 i3 i4
    have hbi : v.bitidx.toNat = s.bitidx.toNat + 1 := by rw [i8, h4]; simp; omega
    rw [h3.cfg, ← i4] at i2
    obtain ⟨c, k1, k2, k3, k4, k5, k6, k7, k8⟩ := ih i2 (by rw [i5, h3.op, hop]) (by omega) (by rw [i4]; exact hwf)
    rw [i4] at k1 k8 k6
    refine ⟨c, ?_, k2, k3, by rw [k4, i10, h3.present], by rw [k5, i11, h6], k6, k7, ?_⟩
    · rw [← Nat.add_assoc, runs_add h1, runs_add i1, k1]
    · have hdr : t.drives = false := by simp [State.drives, h2.phase]
      rw [← Nat.add_assoc, driveTrace_add h1, driveTrace_add i1, k8, h7, i3, hbi, i6, h3.txbuf, hdr]
      rw [List.range'_succ (n := n+1)]
      simp [expand_writeSlot _ _ hwf, phaseCycles, phaseUs, State.txBit]

/-- The slots of OW_READ_BYTE from slot `bitidx` on, when `n` more follow (41_byte_framer.md R95, R96). -/
theorem read_byte_slots {n : Nat} {s : State} (h : Entered .init ((n + 1) * readSlotCycles s.cfg) s)
    (hop : s.op = 5#3) (hn : s.bitidx.toNat + n = 7) :
    ∃ c, runs ((n + 1) * readSlotCycles s.cfg) s = .next c ∧ c.phase = .idle ∧ c.done = true ∧ c.present = s.present ∧
      (∀ k, k < s.bitidx.toNat → c.rxdata.getLsbD k = s.rxbuf.getLsbD k) ∧
      (∀ j, j < n + 1 → ∃ m, runs (j * readSlotCycles s.cfg + s.cfg.cycles (s.cfg.tInit + s.cfg.tRds) - 1) s = .next m ∧
        c.rxdata.getLsbD (s.bitidx.toNat + j) = m.lineSync) ∧
      driveTrace ((n + 1) * readSlotCycles s.cfg) s =
        (List.replicate (n + 1) (expand (readSlot s.cfg))).flatten := by
  have hwf := h.running.config
  have hN := read_sample_cycle hwf
  have hp0 : 0 < s.cfg.cycles (s.cfg.tInit + s.cfg.tRds) := cycles_pos hwf (by have := wellFormed_bounds hwf; omega)
  induction n generalizing s with
  | zero =>
    rw [Nat.zero_add, Nat.one_mul, readSlotCycles_eq] at h ⊢
    obtain ⟨m, t, h0, h1, h2, h3, h4, h5, h6, h7⟩ :=
      read_slot_body (k := phaseCycles s.cfg .recov + 0) h (by rw [hop]; decide)
    rw [← h3.cfg] at h2
    obtain ⟨c, j1, jr, j2, j3, j4, j5, j6, j7, j8, j9, j10, j11, j12⟩ := phase_last h2 (by decide)
      (by rw [h3.op, h4, hop]; simp [nextPhase]; omega)
    rw [h3.cfg] at j1 j4
    have hrx : c.rxdata = placeBit s.rxbuf s.bitidx m.lineSync := by
      rw [j12, h3.op, hop, h5]; simp [isReadOp]
    refine ⟨c, by rw [read_slot_split, runs_add h1, j1], j2, j3, ?_, ?_, ?_, ?_⟩
    · rw [j11, h3.op, hop, h3.present]; simp [isResetOp]
    · intro k hk
      rw [hrx, getLsbD_placeBit _ _ _ _ (by omega), if_neg (by omega)]
    · intro j hj
      obtain rfl : j = 0 := by omega
      refine ⟨m, by rw [Nat.zero_mul, Nat.zero_add, hN, h0], ?_⟩
      rw [hrx, getLsbD_placeBit _ _ _ _ (by omega), if_pos (by omega)]
    · rw [read_slot_split, driveTrace_add h1, h7, j4]
      simp [List.replicate_succ, expand_readSlot, phaseCycles, phaseUs]
  | succ n ih =>
    have hL := readSlotCycles_eq s.cfg
    have hD : (n + 1 + 1) * readSlotCycles s.cfg =
        phaseCycles s.cfg .init + (phaseCycles s.cfg .rwait + (phaseCycles s.cfg .rpad +
          (phaseCycles s.cfg .recov + (n + 1) * readSlotCycles s.cfg))) := by
      rw [Nat.succ_mul, hL]; omega
    have hL2 := hL.trans (read_slot_split s.cfg _)
    rw [hD] at h ⊢
    obtain ⟨m, t, h0, h1, h2, h3, h4, h5, h6, h7⟩ := read_slot_body h (by rw [hop]; decide)
    rw [← h3.cfg] at h2
    obtain ⟨m1, v, -, i1, i2, i3, i4, i5, i6, i7, i8, i9, i10, i11⟩ :=
      phase_inner (q := .init) h2 (by decide) (by decide) (by decide) (by decide)
        (by rw [h3.op, h4, hop]; simp [nextPhase, isByteOp]; omega)
    simp only [if_true, reduceCtorEq, if_false] at i8 i7
    rw [h3.cfg] at i1 i3 i4
    have hbi : v.bitidx.toNat = s.bitidx.toNat + 1 := by rw [i8, h4]; simp; omega
    rw [h3.cfg, ← i4] at i2
    obtain ⟨c, k1, k2, k3, k4, k5, k6, k8⟩ :=
      ih i2 (by rw [i5, h3.op, hop]) (by omega) (by rw [i4]; exact hwf) (by rw [i4]; exact hN) (by rw [i4]; exact hp0)
    rw [i4] at k1 k8 k6
    have hv : runs (readSlotCycles s.cfg) s = .next v := by rw [hL2, runs_add h1, i1]
    refine ⟨c, ?_, k2, k3, by rw [k4, i10, h3.present], ?_, ?_, ?_⟩
    · rw [read_slot_split, runs_add h1, runs_add i1, k1]
    · intro k hk
      rw [k5 k (by omega), i7, h5, getLsbD_placeBit _ _ _ _ (by omega), if_neg (by omega)]
    · intro j hj
      cases j with
      | zero =>
        refine ⟨m, by rw [Nat.zero_mul, Nat.zero_add, hN, h0], ?_⟩
        rw [k5 _ (by omega), i7, h5, getLsbD_placeBit _ _ _ _ (by omega), if_pos (by omega)]
      | succ j =>
        obtain ⟨m', g1, g2⟩ := k6 j (by omega)
        refine ⟨m', ?_, by rw [← g2, hbi]; congr 1; omega⟩
        have hj : (j + 1) * readSlotCycles s.cfg + s.cfg.cycles (s.cfg.tInit + s.cfg.tRds) - 1 =
            readSlotCycles s.cfg + (j * readSlotCycles s.cfg + s.cfg.cycles (s.cfg.tInit + s.cfg.tRds) - 1) := by
          rw [Nat.succ_mul]; omega
        rw [hj, runs_add hv, g1]
    · have hdr : t.drives = false := by simp [State.drives, h2.phase]
      rw [read_slot_split, driveTrace_add h1, driveTrace_add i1, k8, h7, i3, hdr]
      rw [List.replicate_succ (n := n + 1), List.flatten_cons, expand_readSlot]
      simp only [phaseCycles, phaseUs, List.append_assoc]

/-- Bit `k` of the assembled value is the `k`-th sample (41_byte_framer.md R96). -/
theorem testBit_assemble : ∀ (l : List Bool) (k : Nat), (assemble l).testBit k = l.getD k false := by
  intro l
  induction l with
  | nil => intro k; simp [assemble]
  | cons b bs ih =>
    intro k
    cases k with
    | zero => cases b <;> simp [assemble, Nat.testBit_zero]
    | succ k =>
      rw [assemble, Nat.testBit_succ,
        show (b.toNat + 2 * assemble bs) / 2 = assemble bs by cases b <;> (simp; try omega), ih]
      simp

end Sys2Proof
end

