-- ==== Sys2Proof/Laws/Registers.lean ====
section
/-! SUPPORT. What one edge makes of each register, in the terms the statements use (`writesReg`, `acceptsNow`,
`rejectsNow`). -/

namespace Sys2Proof

open Sys2Proof.Machine

/-- `legal(v)` holds exactly of the bytes that decode (30_encoding.md R62, R63). -/
theorem legalByte_iff (v : Byte) : (legalByte v = true) = (∃ i, decodeByte v = .ok i) := by
  have h : ∀ v : Byte, legalByte v = (decodeByte v).toBool := by decide
  rw [h]; cases decodeByte v <;> simp [Except.toBool]

/-- The fields of a byte that decodes (R60, R62). -/
theorem fields_of_decodeByte (v : Byte) (i : Instr) (h : decodeByte v = .ok i) :
    i.opCode = v.extractLsb' 0 3 ∧ i.bOperand = v.extractLsb' 3 1 := by
  have h1 : ∀ v : Byte,
      (match decodeByte v with
        | .ok i => decide (i.opCode = v.extractLsb' 0 3 ∧ i.bOperand = v.extractLsb' 3 1)
        | _ => true) = true := by decide
  have := h1 v
  rw [h] at this; simpa using this

/-- The port signals are those of the access. -/
theorem port_of_busOf {s : State} {bus : Bus} (h : busOf s.cfg s.hostNow.access = .ok bus) : port s = bus := by
  simp [port, h]

/-- The one kind of access the port refuses (20_memory.md R44). -/
theorem busOf_error {c : Config} {x : HostAccess} {r : Refusal} (h : busOf c x = .error r) :
    r = .wideAccess ∧ ∃ a n, x = .wide a n ∧ a < c.base + 8 ∧ c.base < a + n := by
  cases x with
  | wide a n =>
    simp only [busOf] at h
    split at h
    · rename_i hh; simp [touchesWindow] at hh; cases h; exact ⟨rfl, a, n, rfl, hh⟩
    · cases h
  | _ => simp [busOf] at h

/-- One access writes one register. -/
theorem writesReg_unique {s : State} {a b : RegAddr} (h : writesReg s a = true) (hab : a ≠ b) : writesReg s b = false := by
  simp only [writesReg, Bool.and_eq_true, decide_eq_true_eq] at h
  simp [writesReg, h, hab]

/-- A phase that ends in IDLE ends the command, and no other does. -/
theorem completes_of_nextPhase {s : State} {p : Phase} (h : nextPhase s.op s.bitidx s.phase = some p) :
    completes s p = decide (p = .idle) := by
  unfold completes
  cases hp : s.phase <;> rw [hp] at h <;> simp [nextPhase] at h
  all_goals (try (subst h; rfl))
  · split at h
    · cases h; rfl
    · split at h <;> cases h; rfl
  · split at h <;> cases h <;> rfl

/-- DONE after the FSM's part of the edge. -/
theorem fsmEdge_done {s u : State} (h : fsmEdge s = some u) : u.done = (s.completionEdge || s.done) := by
  obtain ⟨hi, rfl⟩ | ⟨hb, hc, rfl⟩ | ⟨hb, hc, p, hp, rfl⟩ := fsmEdge_cases h
  · simp [State.completionEdge, hi]
  · simp [State.completionEdge, hb, show s.cnt ≠ 0 by omega]
  · simp only [State.enter_done, State.exitAction_done, State.shiftSync_done, completes_shiftSync, completes_of_nextPhase hp]
    simp [State.completionEdge, hb, hc, hp]

/-- PRESENT after the FSM's part of the edge (10_state.md R24). -/
theorem fsmEdge_present {s u : State} (h : fsmEdge s = some u) :
    u.present = if s.completionEdge && isResetOp s.op then s.presS else s.present := by
  obtain ⟨hi, rfl⟩ | ⟨hb, hc, rfl⟩ | ⟨hb, hc, p, hp, rfl⟩ := fsmEdge_cases h
  · simp [State.completionEdge, hi]
  · simp [State.completionEdge, hb, show s.cnt ≠ 0 by omega]
  · simp only [State.enter_present, State.exitAction_present, State.shiftSync_present, completes_shiftSync,
      completes_of_nextPhase hp]
    simp [State.completionEdge, hb, hc, hp]

/-- RXDATA after the FSM's part of the edge (10_state.md R28). -/
theorem fsmEdge_rxdata {s u : State} (h : fsmEdge s = some u) :
    u.rxdata = if s.completionEdge && isReadOp s.op then s.rxbuf else s.rxdata := by
  obtain ⟨hi, rfl⟩ | ⟨hb, hc, rfl⟩ | ⟨hb, hc, p, hp, rfl⟩ := fsmEdge_cases h
  · simp [State.completionEdge, hi]
  · simp [State.completionEdge, hb, show s.cnt ≠ 0 by omega]
  · simp only [State.enter_rxdata, State.exitAction_rxdata, State.shiftSync_rxdata, completes_shiftSync,
      completes_of_nextPhase hp]
    simp [State.completionEdge, hb, hc, hp]

/-- The FSM's part of an edge does not see the host's access. -/
theorem fsmEdge_withAccess (s : State) (a : HostAccess) (hr : s.rstNow = false) :
    fsmEdge (s.withAccess a) =
      (fsmEdge s).map fun u => { u with host := { rst := false, access := a } :: s.host.tail } := by
  have h0 : (s.withAccess a).owI = s.owI := by
    simp [State.owI, State.owOe, State.rstNow, State.hostNow, State.padNow, State.drives, State.txBit]
    simp [State.rstNow, State.hostNow] at hr
    simp [hr]
  have h1 : (s.withAccess a).lineSync = s.lineSync := by simp only [State.lineSync, h0]; simp
  by_cases hi : s.phase = .idle
  · rw [fsmEdge_idle hi, fsmEdge_idle (by simpa using hi)]
    simp [State.shiftSync, h0]; try rfl
  · by_cases hc : 0 < s.cnt
    · rw [fsmEdge_count hi hc, fsmEdge_count (by simpa using hi) (by simpa using hc)]
      simp [State.shiftSync, State.countDown, h0]; try rfl
    · have hc : s.cnt = 0 := by omega
      cases hp : nextPhase s.op s.bitidx s.phase with
      | none => simp [fsmEdge, hi, hc, hp]
      | some p =>
        rw [fsmEdge_exit hi hc hp,
          fsmEdge_exit (s := s.withAccess a) (by simpa using hi) (by simpa using hc) (by simpa using hp)]
        simp only [Option.map_some, h1]
        congr 1
        unfold State.exitAction State.shiftSync
        simp only [State.withAccess_phase, h0]
        cases s.phase <;> first | rfl | (dsimp only; split <;> rfl)

/-- The access's part of the edge, by the register the host writes. -/
theorem accessEffect_by_register {s u : State} {bus : Bus} (h : port s = bus) :
  accessEffect bus s u =
    if writesReg s 0#3 then
      (match decodeByte bus.wdata with
       | .ok i => if s.phase = .idle then (operandLoad s.txdata i u).accept i.opCode (firstPhase i) else u.reject errBusy
       | .error _ => u.reject (if s.phase = .idle then errIllegal else errBusy))
    else if writesReg s 1#3 then u.acknowledge s.completionEdge bus.wdata
    else if writesReg s 2#3 then { u with txdata := bus.wdata }
    else if writesReg s 4#3 then { u with irqEn := bus.wdata.getLsbD 0 } else u := by
  subst h
  unfold accessEffect
  by_cases hse : (port s).sel && (port s).we
  · have key : ∀ a : RegAddr, writesReg s a = decide ((port s).addr = a) := by intro a; simp [writesReg, hse]
    simp only [Bus.writesCmd, hse, Bool.true_and, key]
    generalize (port s).addr = a
    have : a = 0#3 ∨ a = 1#3 ∨ a = 2#3 ∨ a = 3#3 ∨ a = 4#3 ∨ a = 5#3 ∨ a = 6#3 ∨ a = 7#3 := by revert a; decide
    rcases this with rfl | rfl | rfl | rfl | rfl | rfl | rfl | rfl <;> simp [commandEffect] <;>
      (cases decodeByte (port s).wdata <;> rfl)
  · have hse : ((port s).sel && (port s).we) = false := by simpa using hse
    have key : ∀ a : RegAddr, writesReg s a = false := by intro a; simp only [writesReg, hse, Bool.false_and]
    simp [Bus.writesCmd, hse, key]

/-- An accepted CMD write. -/
theorem accessEffect_accept {s u : State} : acceptsNow s = true →
    ∃ i, decodeByte (port s).wdata = .ok i ∧ s.phase = .idle ∧ writesReg s 0#3 = true ∧
      accessEffect (port s) s u = (operandLoad s.txdata i u).accept i.opCode (firstPhase i) := by
  intro h
  simp only [acceptsNow, Bool.and_eq_true, decide_eq_true_eq, legalByte_iff] at h
  obtain ⟨⟨hi, hw⟩, i, hd⟩ := h
  exact ⟨i, hd, hi, hw, by rw [accessEffect_by_register rfl, if_pos hw, hd]; simp [hi]⟩

/-- A rejected CMD write, with the code recorded (60_exceptions.md R110). -/
theorem accessEffect_reject {s u : State} : rejectsNow s = true →
    writesReg s 0#3 = true ∧ acceptsNow s = false ∧
      accessEffect (port s) s u = u.reject (if s.phase ≠ .idle then 2#2 else 1#2) := by
  intro h
  simp only [rejectsNow, Bool.and_eq_true, Bool.not_eq_true'] at h
  obtain ⟨hw, ha⟩ := h
  refine ⟨hw, ha, ?_⟩
  rw [accessEffect_by_register rfl, if_pos hw]
  cases hd : decodeByte (port s).wdata with
  | ok i =>
    have : s.phase ≠ .idle := by
      intro hi
      have : legalByte (port s).wdata = true := by rw [legalByte_iff]; exact ⟨i, hd⟩
      simp [acceptsNow, hi, hw, this] at ha
    simp [this, errBusy]
  | error e => by_cases hi : s.phase = .idle <;> simp [hi, errBusy, errIllegal]

/-- Every edge without a CMD write. -/
theorem accessEffect_other {s u : State} : acceptsNow s = false → rejectsNow s = false →
    writesReg s 0#3 = false ∧
      accessEffect (port s) s u =
        if writesReg s 1#3 then u.acknowledge s.completionEdge (port s).wdata
        else if writesReg s 2#3 then { u with txdata := (port s).wdata }
        else if writesReg s 4#3 then { u with irqEn := (port s).wdata.getLsbD 0 } else u := by
  intro ha hr
  have hw : writesReg s 0#3 = false := by simpa [rejectsNow, ha] using hr
  exact ⟨hw, by rw [accessEffect_by_register rfl, if_neg (by simp [hw])]⟩

/-- A field that only an accepted command touches, apart from the registers the host writes itself. -/
theorem accessEffect_field {α : Type} {s u : State} (ha : acceptsNow s = false) (f : State → α)
    (h1 : ∀ u c, f (State.reject c u) = f u) (h2 : ∀ b v u, f (State.acknowledge b v u) = f u)
    (h3 : ∀ (u : State) v, f { u with txdata := v } = f u) (h4 : ∀ (u : State) v, f { u with irqEn := v } = f u) :
    f (accessEffect (port s) s u) = f u := by
  cases hj : rejectsNow s
  · rw [(accessEffect_other ha hj).2]; split_ifs <;> simp [h2, h3, h4]
  · rw [(accessEffect_reject hj).2.2, h1]

/-- A step with `rst = 0`. -/
theorem step_without_reset {s t : State} (h : step s = .next t) (hr : s.rstNow = false) :
    ∃ u, fsmEdge s = some u ∧ s.launched = true ∧ t = (accessEffect (port s) s u).endCycle := by
  obtain ⟨-, ⟨h1, -⟩ | ⟨-, hl, bus, u, hb, hu, rfl⟩⟩ := step_cases h
  · simp [hr] at h1
  · exact ⟨u, hu, hl, by rw [port_of_busOf hb]⟩

/-- A step with `rst = 1`. -/
theorem step_with_reset {s t : State} (h : step s = .next t) (hr : s.rstNow = true) : t = s.resetEdge.endCycle := by
  obtain ⟨-, ⟨h1, h2⟩ | ⟨h1, -⟩⟩ := step_cases h
  · exact h2
  · simp [hr] at h1

/-- What the synchronizer holds after `n` edges, `n` at most its depth. -/
theorem sync_after_runs : ∀ (n : Nat) (s t : State), undisturbed n s → runs n s = .next t → n ≤ s.sync.length →
    t.sync.length = s.sync.length ∧
      ∃ pre : List Bool, t.sync = pre ++ s.sync.take (s.sync.length - n) ∧ pre.length = n ∧
        (0 < n → pre.getLast? = some s.owI) := by
  intro n
  induction n with
  | zero => intro s t _ h _; simp at h; subst h; exact ⟨rfl, [], by simp⟩
  | succ n ih =>
    intro s t hu h hn
    cases hs : step s with
    | next u =>
      rw [runs_succ hs] at h
      obtain ⟨hr, -⟩ := undisturbed_now hu
      obtain ⟨v, hv, -, rfl⟩ := step_without_reset hs hr
      have h1 := accessEffect_frame (port s) s v
      have h2 := fsmEdge_frame hv
      have hsy : (accessEffect (port s) s v).endCycle.sync = (s.owI :: s.sync).dropLast := by simp [h1, h2]
      obtain ⟨g1, pre, g2, g3, g4⟩ := ih _ t (undisturbed_tail hu (by simp [h1, h2]) (by simp [h1, h2])) h
        (by rw [hsy]; simp; omega)
      rw [hsy] at g1 g2
      refine ⟨by simpa using g1, pre ++ [s.owI], ?_, by simp [g3], by simp⟩
      rw [g2]
      simp
      rw [List.dropLast_eq_take, List.take_take]
      rw [show min (s.sync.length - n) ((s.owI :: s.sync).length - 1) = (s.sync.length - (n+1)) + 1 by simp; omega]
      simp
    | fault r => simp [runs, Host.Core.run, core, hs] at h
    | refused r => simp [runs, Host.Core.run, core, hs] at h

/-- What is left of an undisturbed stretch after a run, and what such a run keeps. -/
theorem undisturbed_after_runs : ∀ (n k : Nat) (a b : State), undisturbed (n + k) a → runs n a = .next b →
    undisturbed k b ∧ b.cfg = a.cfg ∧ b.sync.length = a.sync.length ∧ b.launched = a.launched := by
  intro n
  induction n with
  | zero => intro k a b h hb; simp at hb; subst hb; simpa using h
  | succ n ih =>
    intro k a b h hb
    cases hs : step a with
    | next u =>
      rw [runs_succ hs] at hb
      rw [show n + 1 + k = (n + k) + 1 by omega] at h
      obtain ⟨hrst, -⟩ := undisturbed_now h
      obtain ⟨v, hv, -, rfl⟩ := step_without_reset hs hrst
      have h1 := accessEffect_frame (port a) a v
      have h2 := fsmEdge_frame hv
      obtain ⟨i1, i2, i3, i4⟩ := ih k _ b (undisturbed_tail h (by simp [h1, h2]) (by simp [h1, h2])) hb
      exact ⟨i1, by rw [i2]; simp [h1, h2], by rw [i3]; simp [h1, h2], by rw [i4]; simp [h1, h2]⟩
    | fault r => simp [runs, Host.Core.run, core, hs] at hb
    | refused r => simp [runs, Host.Core.run, core, hs] at hb

/-- A host that does nothing does not disturb. -/
theorem undisturbed_of_silent {n : Nat} {s : State} (h : silent n s) : undisturbed n s := by
  intro x hx; rw [h x hx]; exact ⟨rfl, _, rfl⟩

theorem silent_now {n : Nat} {s : State} (h : silent (n + 1) s) : s.rstNow = false ∧ port s = noBus := by
  cases hh : s.host with
  | nil => simp [State.rstNow, State.hostNow, hh, port, busOf_noAccess]
  | cons x xs =>
    have hx := h x (by simp [hh])
    subst hx
    simp [State.rstNow, State.hostNow, hh, port, busOf_noAccess]

theorem silent_tail {n : Nat} {s t : State} (h : silent (n + 1) s) (hh : t.host = s.host.tail) : silent n t := by
  intro x hx
  rw [hh] at hx
  cases hs : s.host with
  | nil => simp [hs] at hx
  | cons y ys => exact h x (by simp [hs] at hx ⊢; exact .inr hx)

/-- A run with a host that does nothing keeps the registers that only the host and acceptance write. -/
theorem silent_run : ∀ (n : Nat) (a b : State), silent n a → runs n a = .next b →
    b.txdata = a.txdata ∧ b.irqEn = a.irqEn ∧ b.cmderr = a.cmderr ∧ b.errcode = a.errcode ∧ b.op = a.op := by
  intro n
  induction n with
  | zero => intro a b h hb; simp at hb; subst hb; simp
  | succ n ih =>
    intro a b h hb
    cases hs : step a with
    | next u =>
      rw [runs_succ hs] at hb
      obtain ⟨hrst, hp⟩ := silent_now h
      obtain ⟨v, hv, -, rfl⟩ := step_without_reset hs hrst
      have h2 := fsmEdge_frame hv
      have h3 : accessEffect (port a) a v = v := by rw [hp]; rfl
      rw [h3] at hb
      have := ih _ b (silent_tail h (by simp [h2])) hb
      simp [this, h2]
    | fault r => simp [runs, Host.Core.run, core, hs] at hb
    | refused r => simp [runs, Host.Core.run, core, hs] at hb

end Sys2Proof
end

