-- ==== Sys2Proof/Laws/Progress.lean ====
section
/-! SUPPORT. How far a command in progress is from its completion (40_bus_driver.md R88, R89), and what it shows until
then. -/

namespace Sys2Proof

open Sys2Proof.Machine

/-- The cycles of the slots of a byte command that follow slot `i`. -/
def laterSlots (c : Config) (op i : BitVec 3) : Nat :=
  if isByteOp op then (7 - i.toNat) * (if isWriteOp op then writeSlotCycles c else readSlotCycles c) else 0

/-- The cycles of a command that follow its current phase `p`. -/
def laterCycles (c : Config) (op i : BitVec 3) : Phase → Nat
  | .idle => 0
  | .rstLow => phaseCycles c .rstWait + phaseCycles c .rstRem
  | .rstWait => phaseCycles c .rstRem
  | .rstRem => 0
  | .init =>
    (if isWriteOp op then phaseCycles c .wbody else phaseCycles c .rwait + phaseCycles c .rpad) +
      phaseCycles c .recov + laterSlots c op i
  | .wbody => phaseCycles c .recov + laterSlots c op i
  | .rwait => phaseCycles c .rpad + phaseCycles c .recov + laterSlots c op i
  | .rpad => phaseCycles c .recov + laterSlots c op i
  | .recov => laterSlots c op i

/-- The edges from the current cycle to the completion edge of the command in progress. -/
def remaining (s : State) : Nat := s.cnt + 1 + laterCycles s.cfg s.op s.bitidx s.phase

/-- The phases of a command follow each other to its end, and agree with its operation throughout. -/
theorem laterCycles_next {c : Config} {op i : BitVec 3} {q : Phase} (hc : c.wellFormed = true)
    (ho : phaseAdmitsOp q op = true) (hq : q ≠ .idle) :
    ∃ p, nextPhase op i q = some p ∧ phaseAdmitsOp p op = true ∧
      laterCycles c op i q =
        phaseCycles c p + laterCycles c op (if q = .recov ∧ p = .init then i + 1#3 else i) p := by
  have hz : phaseCycles c .idle = 0 := by simp [phaseCycles, phaseUs, Config.cycles]
  have hrst : isResetOp op = true → phaseAdmitsOp .idle op = true := by clear ho; revert op; decide
  cases q with
  | idle => exact absurd rfl hq
  | rstLow => exact ⟨.rstWait, rfl, ho, by simp [laterCycles]⟩
  | rstWait => exact ⟨.rstRem, rfl, ho, by simp [laterCycles]⟩
  | rstRem => exact ⟨.idle, rfl, hrst ho, by simp [laterCycles, hz]⟩
  | init =>
    by_cases hw : isWriteOp op = true
    · exact ⟨.wbody, by simp [nextPhase, hw], hw, by simp [laterCycles, hw]; omega⟩
    · have hr : isReadOp op = true := by simpa [phaseAdmitsOp, hw] using ho
      exact ⟨.rwait, by simp [nextPhase, hw, hr], hr, by simp [laterCycles, hw]; omega⟩
  | wbody => exact ⟨.recov, rfl, by simp [phaseAdmitsOp] at ho ⊢; simp [ho], by simp [laterCycles]⟩
  | rwait => exact ⟨.rpad, rfl, ho, by simp [laterCycles]; omega⟩
  | rpad => exact ⟨.recov, rfl, by simp [phaseAdmitsOp] at ho ⊢; simp [ho], by simp [laterCycles]⟩
  | recov =>
    by_cases hh : isByteOp op = true ∧ i.toNat < 7
    · refine ⟨.init, by simp [nextPhase, hh], ho, ?_⟩
      obtain ⟨j, hj⟩ : ∃ j, 7 - i.toNat = j + 1 := ⟨6 - i.toNat, by omega⟩
      have hi : (i + 1#3).toNat = i.toNat + 1 := by simp; omega
      have hj2 : 7 - (i.toNat + 1) = j := by omega
      simp only [laterCycles, laterSlots, hh.1, if_true, and_self, hi, hj, hj2, Nat.succ_mul]
      split
      · rw [writeSlotCycles_eq hc]; omega
      · rw [readSlotCycles_eq]; omega
    · refine ⟨.idle, by simp only [nextPhase]; rw [if_neg (by simpa using hh)], ?_, ?_⟩
      · clear hh hrst; revert ho; simp only [phaseAdmitsOp]; revert op; decide
      · simp only [laterCycles, laterSlots, hz]
        split
        · rename_i hb; rw [show 7 - i.toNat = 0 by have := hh; simp [hb] at this; omega]; simp
        · rfl

/-- The FSM's part of the edge of a command in progress brings its completion one edge nearer, and keeps phase and
operation in agreement. -/
theorem fsmEdge_remaining {s : State} (hc : s.cfg.wellFormed = true) (ho : phaseAdmitsOp s.phase s.op = true)
    (hb : s.phase ≠ .idle) :
    ∃ u, fsmEdge s = some u ∧ phaseAdmitsOp u.phase u.op = true ∧
      (u.phase = .idle → remaining s = 1) ∧ (u.phase ≠ .idle → remaining s = remaining u + 1) := by
  by_cases h0 : 0 < s.cnt
  · refine ⟨_, fsmEdge_count hb h0, by simpa using ho, fun h => absurd (by simpa using h) hb, fun _ => ?_⟩
    simp [remaining]; omega
  · have h0 : s.cnt = 0 := by omega
    obtain ⟨p, hp, ha, hl⟩ := laterCycles_next (i := s.bitidx) hc ho hb
    refine ⟨_, fsmEdge_exit hb h0 hp, by simpa using ha, ?_, ?_⟩
    · intro h
      obtain rfl : p = .idle := by simpa using h
      rw [remaining, h0, hl]; simp [laterCycles, phaseCycles, phaseUs, Config.cycles]
    · intro h
      have hpos := phaseCycles_pos (p := p) hc (by simpa using h)
      simp [remaining, h0, hl]; omega

/-- Until its last edge a command is in progress, with DONE low and the committed results as they were (10_state.md R22,
R23, R24, R28). -/
theorem busy_until_completion {n : Nat} {s : State} (hr : Running n s) (ho : phaseAdmitsOp s.phase s.op = true)
    (hb : s.phase ≠ .idle) (hd : s.done = false) (hn : n < remaining s) :
    ∃ m, runs n s = .next m ∧ m.phase ≠ .idle ∧ m.done = false ∧ m.present = s.present ∧ m.rxdata = s.rxdata ∧
      m.op = s.op := by
  induction n generalizing s with
  | zero => exact ⟨s, rfl, hb, hd, rfl, rfl, rfl⟩
  | succ n ih =>
    obtain ⟨u, hu, h1, h2, h3⟩ := fsmEdge_remaining hr.config ho hb
    obtain ⟨t, ht, hs, hrt, hdn, -⟩ := step_busy hr hb hu
    have hnb : u.phase ≠ .idle := fun h => by have := h2 h; omega
    have hce : s.completionEdge = false := by
      obtain ⟨hi, rfl⟩ | ⟨h4, h5, rfl⟩ | ⟨h4, h5, p, hp, rfl⟩ := fsmEdge_cases hu
      · exact absurd hi hb
      · simp [State.completionEdge, show s.cnt ≠ 0 by omega]
      · simp [State.completionEdge, hp]; intro _ _; simpa using hnb
    have hrem : remaining t = remaining u := by simp [remaining, hs.cfg, hs.cnt, hs.op, hs.bitidx, hs.phase]
    obtain ⟨m, g1, g2, g3, g4, g5, g6⟩ := ih hrt (by rw [hs.phase, hs.op]; exact h1) (by rw [hs.phase]; exact hnb)
      (hdn (by rw [fsmEdge_done hu, hce, hd]; rfl)) (by have := h3 hnb; omega)
    refine ⟨m, by rw [runs_succ ht]; exact g1, g2, g3, ?_, ?_, ?_⟩
    · rw [g4, hs.present, fsmEdge_present hu, hce]; rfl
    · rw [g5, hs.rxdata, fsmEdge_rxdata hu, hce]; rfl
    · have := fsmEdge_frame hu
      rw [g6, hs.op, this.2.1]

/-- At its entry a command is its whole duration away from completion (40_bus_driver.md R88). -/
theorem remaining_of_entered {n : Nat} {i : Instr} {s : State} (h : Entered (firstPhase i) n s) (hop : s.op = i.opCode)
    (hb : s.bitidx = 0#3) : remaining s = durationCycles s.cfg i ∧ phaseAdmitsOp s.phase s.op = true := by
  have hc := h.running.config
  have hpos := phaseCycles_pos (p := firstPhase i) hc (by cases i <;> simp [firstPhase])
  constructor
  · rw [remaining, h.cnt, h.phase, hop, hb]
    cases i with
    | owReset =>
      have : durationCycles s.cfg .owReset =
          phaseCycles s.cfg .rstLow + (phaseCycles s.cfg .rstWait + phaseCycles s.cfg .rstRem) := by
        simp only [durationCycles, phaseCycles, phaseUs, cycles_add]; congr 1; omega
      simp [laterCycles, firstPhase] at hpos ⊢; omega
    | owWriteBit b =>
      simp [laterCycles, laterSlots, firstPhase, Instr.opCode, isWriteOp, isByteOp, durationCycles, writeSlotCycles_eq hc] at hpos ⊢
      omega
    | owReadBit =>
      simp [laterCycles, laterSlots, firstPhase, Instr.opCode, isWriteOp, isByteOp, durationCycles, readSlotCycles_eq] at hpos ⊢
      omega
    | owWriteByte =>
      simp [laterCycles, laterSlots, firstPhase, Instr.opCode, isWriteOp, isByteOp, durationCycles, writeSlotCycles_eq hc] at hpos ⊢
      omega
    | owReadByte =>
      simp [laterCycles, laterSlots, firstPhase, Instr.opCode, isWriteOp, isByteOp, durationCycles, readSlotCycles_eq] at hpos ⊢
      omega
  · rw [h.phase, hop]; cases i <;> rfl

end Sys2Proof
end

