-- ==== Sys2Proof/Laws/HostProgram.lean ====
section
/-! SUPPORT. One cycle of the whole system, said once: the controller always goes on, and what each line of a host
program makes of the host. -/

namespace Sys2Proof

open Sys2Proof.Machine

/-- Under the invariant the controller has a next state for every access that is not refused. -/
theorem next_of_ordinary {s : State} {x : HostAccess} {bus : Bus} (hr : Ready s) (hi : Inv s)
    (hb : busOf s.cfg x = .ok bus) : ∃ t, step (s.withAccess x) = .next t := by
  by_cases h : s.phase = .idle
  · exact ⟨_, step_of_ordinary (s := s.withAccess x) hr.1 rfl hr.2 hb (fsmEdge_idle h)⟩
  · obtain ⟨u, hu, -⟩ := fsmEdge_remaining (s := s.withAccess x) hi.config hi.operation h
    exact ⟨_, step_of_ordinary (s := s.withAccess x) hr.1 rfl hr.2 hb hu⟩

/-- A host program makes byte accesses only. -/
theorem systemAccess_ordinary (y : System) : ∃ bus, busOf y.ctl.cfg y.access = .ok bus := by
  unfold System.access
  split <;> exact ⟨_, rfl⟩

/-- A cycle of the system is the controller's edge under the host's access, beside the host's own move. -/
theorem system_step {y : System} (hr : Ready y.ctl) (hi : Inv y.ctl) :
    ∃ t, step (y.ctl.withAccess y.access) = .next t ∧
      y.step = some { y.hostAfter (y.ctl.withAccess y.access).busRdata with ctl := t } := by
  obtain ⟨bus, hb⟩ := systemAccess_ordinary y
  obtain ⟨t, ht⟩ := next_of_ordinary hr hi hb
  exact ⟨t, ht, by simp only [System.step, ht]⟩

/-- The lines of a host that has not halted, and of one that has. -/
theorem todo_of_running {y : System} (h : y.halted = false) : y.todo = y.prog := by simp [System.todo, h]
theorem todo_of_halted {y : System} (h : y.halted = true) : y.todo = [] := by simp [System.todo, h]

/-- A host that has halted makes no access and no move (45_host_sequences.md R104). -/
theorem access_of_halted {y : System} (h : y.halted = true) : y.access = .noAccess := by
  simp [System.access, todo_of_halted h]
theorem hostAfter_of_halted {y : System} (h : y.halted = true) (v : Byte) : y.hostAfter v = y := by
  simp [System.hostAfter, todo_of_halted h, h]

/-- The host's move for each line of a program, and at the end of one. -/
theorem hostAfter_wr {y : System} {p : List HostOp} {a : RegAddr} {b : Byte} (h : y.halted = false) (hp : y.prog = .wr a b :: p)
    (v : Byte) : y.hostAfter v = { y with prog := p } := by
  simp [System.hostAfter, todo_of_running h, hp]
theorem hostAfter_rd {y : System} {p : List HostOp} {a : RegAddr} (h : y.halted = false) (hp : y.prog = .rd a :: p)
    (v : Byte) : y.hostAfter v = { y with prog := p, reads := y.reads ++ [v] } := by
  simp [System.hostAfter, todo_of_running h, hp]
theorem hostAfter_waitIdle {y : System} {p : List HostOp} (h : y.halted = false) (hp : y.prog = .waitIdle :: p)
    (v : Byte) : y.hostAfter v = { y with prog := if v.getLsbD 0 then .waitIdle :: p else p } := by
  simp [System.hostAfter, todo_of_running h, hp]
theorem hostAfter_waitCycles_zero {y : System} {p : List HostOp} (h : y.halted = false) (hp : y.prog = .waitCycles 0 :: p)
    (v : Byte) : y.hostAfter v = { y with prog := p } := by
  simp [System.hostAfter, todo_of_running h, hp]
theorem hostAfter_waitCycles_succ {y : System} {p : List HostOp} {n : Nat} (h : y.halted = false) (hp : y.prog = .waitCycles (n + 1) :: p)
    (v : Byte) : y.hostAfter v = { y with prog := .waitCycles n :: p } := by
  simp [System.hostAfter, todo_of_running h, hp]
theorem hostAfter_haltIfAbsent {y : System} {p : List HostOp} (h : y.halted = false) (hp : y.prog = .haltIfAbsent :: p)
    (v : Byte) : y.hostAfter v =
      if readsPresence y.reads then { y with prog := p }
      else { y with prog := [], outputs := y.outputs ++ [.noDevice], halted := true } := by
  simp [System.hostAfter, todo_of_running h, hp]
theorem hostAfter_decode {y : System} {p : List HostOp} (h : y.halted = false) (hp : y.prog = .decode :: p)
    (v : Byte) : y.hostAfter v = { y with prog := p, temperature := readsTemperature y.reads } := by
  simp [System.hostAfter, todo_of_running h, hp]
theorem hostAfter_report {y : System} {p : List HostOp} (h : y.halted = false) (hp : y.prog = .report :: p)
    (v : Byte) : y.hostAfter v = { y with prog := p, outputs := y.outputs ++ y.temperature.toList.map .reading } := by
  simp [System.hostAfter, todo_of_running h, hp]
theorem hostAfter_nil {y : System} (h : y.halted = false) (hp : y.prog = []) (v : Byte) :
    y.hostAfter v = { y with prog := y.loop } := by simp [System.hostAfter, todo_of_running h, hp, h]

/-- The last bytes read, as `readsTemperature` and `readsPresence` see them. -/
@[simp] theorem readsTemperature_append (before : List Byte) (lsb msb : Byte) :
    readsTemperature (before ++ [lsb, msb]) = some (decodeTemperature lsb msb) := by simp [readsTemperature]
@[simp] theorem readsPresence_append (before : List Byte) (status : Byte) :
    readsPresence (before ++ [status]) = status.getLsbD 2 := by simp [readsPresence]

end Sys2Proof
end

