-- ==== Sys2Proof/Laws/PerInstr.lean ====
section
/-! SUPPORT. For every command, said per constructor: its byte is the one of its row of spec/opcode_table.json. -/

namespace Sys2Proof.Laws.TableRow

/-- `match` of a command's row of spec/opcode_table.json. -/
def rowMatch : Instr → Byte
  | .owReset => 0x01#8
  | .owWriteBit _ => 0x02#8
  | .owReadBit => 0x03#8
  | .owWriteByte => 0x04#8
  | .owReadByte => 0x05#8

/-- `mask` of a command's row of spec/opcode_table.json: all eight bits are fixed but for the operand of OW_WRITE_BIT. -/
def rowMask : Instr → Byte
  | .owReset => 0xFF#8
  | .owWriteBit _ => 0xF7#8
  | .owReadBit => 0xFF#8
  | .owWriteByte => 0xFF#8
  | .owReadByte => 0xFF#8

/-- The command is well formed, its byte fits its row of the table, and every byte that fits the row decodes to a command
of the same operation code. -/
def Statement (i : Instr) : Prop :=
  i.wellFormed = true ∧ encode i &&& rowMask i = rowMatch i ∧
    ∀ v : Byte, v &&& rowMask i = rowMatch i → (decodeByte v).map Instr.opCode = .ok i.opCode

/-- A row without operand fixes all eight bits. -/
theorem and_full (v : Byte) : v &&& 0xFF#8 = v := by revert v; decide

/-- Row OW_RESET. -/
theorem owReset : Statement .owReset :=
  ⟨by decide, by decide, fun v h => by obtain rfl : v = 0x01#8 := (and_full v).symm.trans h; rfl⟩

/-- Row OW_WRITE_BIT, with either bit. -/
theorem owWriteBit (b : BitVec 1) : Statement (.owWriteBit b) := by
  refine ⟨rfl, by revert b; decide, fun v h => ?_⟩
  have key : ∀ v : Byte, v &&& 0xF7#8 = 0x02#8 → v = 0x02#8 ∨ v = 0x0A#8 := by decide
  rcases key v h with rfl | rfl <;> rfl

/-- Row OW_READ_BIT. -/
theorem owReadBit : Statement .owReadBit :=
  ⟨by decide, by decide, fun v h => by obtain rfl : v = 0x03#8 := (and_full v).symm.trans h; rfl⟩

/-- Row OW_WRITE_BYTE. -/
theorem owWriteByte : Statement .owWriteByte :=
  ⟨by decide, by decide, fun v h => by obtain rfl : v = 0x04#8 := (and_full v).symm.trans h; rfl⟩

/-- Row OW_READ_BYTE. -/
theorem owReadByte : Statement .owReadByte :=
  ⟨by decide, by decide, fun v h => by obtain rfl : v = 0x05#8 := (and_full v).symm.trans h; rfl⟩

end Sys2Proof.Laws.TableRow
end

