-- ==== Sys2Proof/Tests/Slice0.lean ====
section
/-! SUPPORT. Tests against spec/95_test_vectors.md (expected values from there, or by hand from the rule named), and a
witness for the hypotheses of every obligation that has some. -/

namespace Sys2Proof.Tests

open Sys2Proof Sys2Proof.Machine

/-- Configuration T of 95_test_vectors.md section 2.10. -/
def tinyCfg : Config where
  tRstl := 4
  tMsp := 2
  tRstrem := 3
  tInit := 1
  tSlot := 4
  tRds := 1
  tRpad := 2
  tRec := 1
  cyclesPerUs := 1
  syncStages := 0
  cntW := 2
  base := 0x40

/-- The reset state in configuration T, the line high when released in this cycle and the next one. -/
def tiny : State := { State.resetWith tinyCfg with line := [true, true] }

/-- The same with the line low. -/
def tinyLow : State := { tiny with line := [false, true] }

/-- The state in configuration T in phase `p` with the counter at `n`, for the operation `o`, slot `i`. -/
def inPhase (p : Phase) (n : Nat) (o i : BitVec 3) : State := { tiny with phase := p, cnt := n, op := o, bitidx := i }

/-- The state after one step. -/
def after (s : State) : Option State :=
  match step s with
  | .next t => some t
  | .fault _ => none
  | .refused _ => none

/-- A write of `v` to the register `a`. -/
def wr (s : State) (a : RegAddr) (v : Byte) : State := s.withAccess (.memWrite (s.cfg.base + a.toNat) v)

/-! Well-formedness (00_scope.md R8): one ill-formed configuration for each check. -/

theorem test_config_T_wellFormed : tinyCfg.wellFormed = true := by decide
theorem test_config_refuses_rstl : { tinyCfg with tRstl := 0 : Config }.wellFormed = false := by decide
theorem test_config_refuses_msp : { tinyCfg with tMsp := 0 : Config }.wellFormed = false := by decide
theorem test_config_refuses_rstrem : { tinyCfg with tRstrem := 0 : Config }.wellFormed = false := by decide
theorem test_config_refuses_init : { tinyCfg with tInit := 0 : Config }.wellFormed = false := by decide
theorem test_config_refuses_rds : { tinyCfg with tRds := 0 : Config }.wellFormed = false := by decide
theorem test_config_refuses_rpad : { tinyCfg with tRpad := 0 : Config }.wellFormed = false := by decide
theorem test_config_refuses_rec : { tinyCfg with tRec := 0 : Config }.wellFormed = false := by decide
theorem test_config_refuses_slot_no_longer_than_init :
    { tinyCfg with tSlot := 1 : Config }.wellFormed = false := by decide
theorem test_config_refuses_no_clock : { tinyCfg with cyclesPerUs := 0 : Config }.wellFormed = false := by decide
theorem test_config_refuses_narrow_counter : { tinyCfg with cntW := 1 : Config }.wellFormed = false := by decide
theorem test_commands_wellFormed :
    Instr.owReset.wellFormed && (Instr.owWriteBit 0#1).wellFormed && (Instr.owWriteBit 1#1).wellFormed &&
      Instr.owReadBit.wellFormed && Instr.owWriteByte.wellFormed && Instr.owReadByte.wellFormed = true := by decide
/-- R8: CNT_W = 16 with the defaults at 125 cycles in a microsecond. -/
theorem test_cntW_at_125 : (Config.standard 125 0).cntW = 16 := by decide
/-- R88's third column. -/
theorem test_durations_at_125 : durationCycles (Config.standard 125 0) .owReset = 120000 ∧
    durationCycles (Config.standard 125 0) .owReadBit = 7625 ∧
    durationCycles (Config.standard 125 0) .owWriteByte = 61000 := by decide

/-! Decoding (section 2.1). -/

theorem test_decode_owReset : decodeByte 0b00000001#8 = .ok .owReset := by decide
theorem test_decode_owWriteBit : decodeByte 0b00001010#8 = .ok (.owWriteBit 1#1) := by decide
theorem test_decode_owReadBit : decodeByte 0b00000011#8 = .ok .owReadBit := by decide
theorem test_decode_owWriteByte : decodeByte 0b00000100#8 = .ok .owWriteByte := by decide
theorem test_decode_owReadByte : decodeByte 0b00000101#8 = .ok .owReadByte := by decide
theorem test_decode_refuses_op : (decodeByte 0x00#8 = .error .noSuchOp ∧ decodeByte 0x06#8 = .error .noSuchOp) ∧
    decodeByte 0x0F#8 = .error .noSuchOp := by decide
theorem test_decode_refuses_operand : decodeByte 0x09#8 = .error .strayOperand ∧
    decodeByte 0x0C#8 = .error .strayOperand := by decide
theorem test_decode_refuses_reserved : decodeByte 0x11#8 = .error .reservedBits ∧
    decodeByte 0xCC#8 = .error .reservedBits := by decide
theorem test_table_word : decodeTableWord 8 0x0A = some (.owWriteBit 1#1) ∧ decodeTableWord 8 0x0C = none ∧
    decodeTableWord 8 0x101 = none := by decide

/-! One step each, from the trace of section 2.10 (configuration T) and the vectors of sections 2.3 to 2.9. -/

/-- Cycle 0 to 1: accepted, RST_LOW with cnt 3, STATUS 0x01 while the line is driven low. -/
theorem test_owReset_accepted : (after (wr tiny 0#3 0x01#8)).map (fun t => (t.phase, t.cnt, t.owOe, t.statusByte)) =
    some (.rstLow, 3, true, 0x01#8) := by decide
/-- Cycle 9 to 10: PRESENT = 1, DONE = 1, STATUS 0x46. -/
theorem test_owReset_completes :
    (after { inPhase .rstRem 0 1#3 0#3 with presS := true }).map (fun t => (t.phase, t.statusByte)) =
      some (.idle, 0x46#8) := by decide
/-- Cycle 10 to 11: INIT with cnt 0, STATUS 0x05 (PRESENT stays from the OW_RESET). -/
theorem test_owWriteBit_accepted :
    (after (wr { tiny with present := true, done := true } 0#3 0x02#8)).map
      (fun t => (t.phase, t.cnt, t.txbuf, t.statusByte)) = some (.init, 0, 0x00#8, 0x05#8) := by decide
/-- WB2: a write-1 slot releases the line in its body, `ow_oe` 1 in INIT and 0 in WBODY. -/
theorem test_owWriteBit_releases :
    let s := { inPhase .init 0 2#3 0#3 with txbuf := 0x01#8 }
    s.owOe = true ∧ (after s).map (fun t => (t.phase, t.cnt, t.owOe)) = some (.wbody, 2, false) := by decide
/-- Cycle 18 to 19: the sample of a low line is a 0, RPAD with cnt 1. -/
theorem test_owReadBit_samples :
    (after { inPhase .rwait 0 3#3 0#3 with line := [false, true] }).map
      (fun t => (t.phase, t.cnt, t.rxbuf, t.rxdata)) = some (.rpad, 1, 0x00#8, 0x00#8) := by decide
/-- RB3: RXDATA reads 0xA5 until the completion edge, 0x01 after it. -/
theorem test_owReadBit_completes :
    (after { inPhase .recov 0 3#3 0#3 with rxbuf := 0x01#8, rxdata := 0xA5#8 }).map
      (fun t => (t.rxdata, t.statusByte)) = some (0x01#8, 0x42#8) := by decide
/-- WY1: the latched byte is the TXDATA of the cycle of the CMD write. -/
theorem test_owWriteByte_latches :
    (after (wr { tiny with txdata := 0xCC#8 } 0#3 0x04#8)).map (fun t => (t.phase, t.op, t.txbuf, t.txdata)) =
      some (.init, 4#3, 0xCC#8, 0xCC#8) := by decide
/-- WY2, and the bits of 0xCC: slot 1 sends a 0 and slot 2 a 1. -/
theorem test_owWriteByte_next_slot :
    (after { inPhase .recov 0 4#3 1#3 with txbuf := 0xCC#8 }).map (fun t => (t.phase, t.bitidx, t.done, t.txBit)) =
      some (.init, 2#3, false, true) := by decide
/-- Section 2.6, 0x91: the sample of slot 4 goes to bit 4. -/
theorem test_owReadByte_places_bit :
    (after { inPhase .rwait 0 5#3 4#3 with rxbuf := 0x01#8 }).map (fun t => (t.phase, t.rxbuf)) =
      some (.rpad, 0x11#8) := by decide
/-- Section 2.6: slot 7 ends the command and commits the byte. -/
theorem test_owReadByte_completes :
    (after { inPhase .recov 0 5#3 7#3 with rxbuf := 0x91#8 }).map (fun t => (t.phase, t.rxdata, t.done)) =
      some (.idle, 0x91#8, true) := by decide

/-! The host port, errors and reset. -/

/-- ER1: STATUS 0x58. -/
theorem test_illegal_byte : (after (wr tiny 0#3 0x06#8)).map (fun t => (t.phase, t.statusByte)) =
    some (.idle, 0x58#8) := by decide
/-- ER9: a CMD write in the last cycle of an OW_RESET under PU, STATUS 0x6A after it. -/
theorem test_busy_at_completion : (after (wr (inPhase .rstRem 0 1#3 0#3) 0#3 0x00#8)).map (fun t => t.statusByte) =
    some 0x6A#8 := by decide
/-- IQ2: the completion wins over the W1C. -/
theorem test_completion_wins : (after (wr (inPhase .rstRem 0 1#3 0#3) 1#3 0x02#8)).map (fun t => t.done) =
    some true := by decide
/-- ER7: a STATUS write of 0xF5 changes no flag. -/
theorem test_status_write_ignores :
    (after (wr { tiny with done := true, cmderr := true, errcode := 1#2 } 1#3 0xF5#8)).map (fun t => t.statusByte) =
      some 0x5A#8 := by decide
/-- IQ8: CTRL keeps bit 0 only. -/
theorem test_ctrl : (after (wr tiny 4#3 0xFF#8)).map (fun t => t.regRead 4#3) = some 0x01#8 := by decide
/-- IQ4: DONE raises `irq` when it is enabled. -/
theorem test_irq : let s := { inPhase .rstRem 0 1#3 0#3 with irqEn := true }
    s.irq = false ∧ (after s).map (fun t => t.irq) = some true := by decide
/-- RT2 and RT3: `rst` releases the line at once, and the host's write is lost. -/
theorem test_reset :
    let s := { inPhase .rstLow 2 1#3 0#3 with host := [{ rst := true, access := .memWrite 0x44 0x01#8 }] }
    s.owOe = false ∧ (after s).map (fun t => (t.phase, t.irqEn, t.done, t.rxdata)) =
      some (.idle, false, false, 0x00#8) := by decide
/-- RT1: STATUS 0x40 with a synchronizer of two stages, whatever the line. -/
theorem test_reset_status :
    (State.resetWith { tinyCfg with syncStages := 2 }).statusByte = 0x40#8 := by decide
/-- R8, R125, R44. -/
theorem test_refusals :
    (step { tiny with cfg := { tinyCfg with tRec := 0 } } = .refused .badConfig ∧
      step { tiny with launched := false } = .refused .beforeReset) ∧
      step (tiny.withAccess (.wide 0x47 4)) = .refused .wideAccess := ⟨⟨rfl, rfl⟩, rfl⟩
/-- An access outside the block's window leaves the block alone. -/
theorem test_outside_window : (after (tiny.withAccess (.memWrite 0x48 0x01#8))).map (fun t => t.phase) =
    some .idle := by decide
/-- The word the host places runs next, from the reset state (0x0A sends a 1). -/
theorem test_fetch : (after (State.reset.withFetchWord 8 0x0A)).map (fun t => (t.phase, t.op, t.txbuf)) =
    some (.init, 2#3, 0x01#8) := by decide

/-! Host programs: W2 to W4 as 90_conflicts.md C3 corrects them, and WAIT_IDLE. -/

theorem test_temperature : rawTemperature 0x91#8 0x01#8 = 401 ∧ rawTemperature 0xF8#8 0xFF#8 = -8 ∧
    rawTemperature 0x50#8 0x05#8 = 1360 := by decide
theorem test_wait_idle :
    ((System.step { ctl := inPhase .rpad 0 3#3 0#3, prog := [.waitIdle] }).map (fun z => z.prog) =
      some [.waitIdle]) ∧
    ((System.step { ctl := tiny, prog := [.waitIdle] }).map (fun z => z.prog) = some []) := by decide
/-- R102 step 9 with W3's bytes: the third and the fourth byte a session reads. -/
theorem test_session_temperature :
    ((System.step { ctl := tiny, prog := [.decode], reads := [0x46#8, 0x46#8, 0x91#8, 0x01#8] }).map
      (fun z => z.temperature)) = some (some (401 / 16)) := by
  have h : rawTemperature 0x91#8 0x01#8 = 401 := by decide
  show some (some ((rawTemperature 0x91#8 0x01#8 : Rat) / 16)) = _
  rw [h]; rfl
/-- P1 and P1-absent: with STATUS 0x46 the host goes on to its loop, with 0x42 it reports once and halts. -/
theorem test_startup_check :
    ((System.run 2 { sensorHost tiny with prog := [.haltIfAbsent], reads := [0x46#8] }).map
      (fun z => (z.prog.head?, z.outputs, z.halted)) = some (some (.wr 0#3 0x01#8), [], false)) ∧
    ((System.run 2 { sensorHost tiny with prog := [.haltIfAbsent], reads := [0x42#8] }).map
      (fun z => (z.prog.head?, z.outputs, z.halted)) = some (none, [.noDevice], true)) := by decide

/-! Witnesses: for each obligation, values that meet all its hypotheses together. -/

/-- A state with the invariant that has a command in progress: slot 3 of an OW_READ_BYTE. -/
def reading : State := { inPhase .rwait 0 5#3 3#3 with rxbuf := 0x05#8 }

theorem ready_tiny : Ready tiny := ⟨by decide, rfl⟩

theorem witness_CommandByteMap : (0x00#8 ≠ 0x01#8 ∧ 0x00#8 ≠ 0x0A#8) ∧ ((0xFF#8 : Byte) ≠ 0x01#8 ∧
    (0xFF#8 : Byte) ≠ 0x02#8 ∧ (0xFF#8 : Byte) ≠ 0x03#8 ∧ (0xFF#8 : Byte) ≠ 0x04#8 ∧ (0xFF#8 : Byte) ≠ 0x05#8 ∧
    (0xFF#8 : Byte) ≠ 0x0A#8) := by decide
theorem witness_DecodeFollowsLegalBytes : decodeByte 0x0A#8 = .ok (.owWriteBit 1#1) := by decide
theorem witness_DecodeInvertsEncode : decodeByte 0x05#8 = .ok .owReadByte := by decide
theorem witness_StepRunsTheDecodedCommand :
    let s := wr tiny 0#3 0x04#8
    Ready s ∧ s.rstNow = false ∧ busOf s.cfg s.hostNow.access = .ok { sel := true, we := true, addr := 0#3, wdata := 0x04#8 } ∧
      decodeByte 0x04#8 = .ok .owWriteByte ∧ ∃ t, exec .owWriteByte s = .next t :=
  ⟨⟨by decide, rfl⟩, rfl, rfl, rfl, _, rfl⟩
theorem witness_FetchWordIsRunNext : Ready tiny ∧ decodeTableWord 8 0x03 = some .owReadBit := ⟨ready_tiny, by decide⟩
/-- For every statement about each step that answers a next state: a quiet edge, a reset edge, an accepting edge, a
rejecting edge, a completion edge, a sampling edge, and the edges of the other register writes. -/
theorem witness_next_states :
    (∃ t, step tiny = .next t) ∧
    (∃ t, step { tiny with host := [{ rst := true, access := .noAccess }] } = .next t) ∧
    (∃ t, step (wr tiny 0#3 0x05#8) = .next t ∧ acceptsNow (wr tiny 0#3 0x05#8) = true) ∧
    (∃ t, step (wr reading 0#3 0x05#8) = .next t ∧ rejectsNow (wr reading 0#3 0x05#8) = true) ∧
    (∃ t, step (inPhase .recov 0 5#3 7#3) = .next t ∧ (inPhase .recov 0 5#3 7#3).completionEdge = true) ∧
    (∃ t, step (inPhase .rstWait 0 1#3 0#3) = .next t) ∧
    (∃ t, step (wr tiny 1#3 0x0A#8) = .next t) ∧ (∃ t, step (wr tiny 2#3 0xCC#8) = .next t) ∧
    (∃ t, step (wr tiny 4#3 0x01#8) = .next t) :=
  ⟨⟨_, rfl⟩, ⟨_, rfl⟩, ⟨_, rfl, rfl⟩, ⟨_, rfl, rfl⟩, ⟨_, rfl, rfl⟩, ⟨_, rfl⟩, ⟨_, rfl⟩, ⟨_, rfl⟩, ⟨_, rfl⟩⟩
/-- For the five acceptance statements. -/
theorem witness_acceptance : tiny.phase = .idle := rfl
theorem witness_RejectionIsPrecise :
    let s := wr reading 0#3 0x01#8
    Ready s ∧ s.rstNow = false ∧ rejectsNow s = true ∧ (∃ t, step s = .next t) ∧
      ∃ u, step (s.withAccess .noAccess) = .next u := ⟨⟨by decide, rfl⟩, rfl, rfl, ⟨_, rfl⟩, ⟨_, rfl⟩⟩
theorem witness_BusyControllerRejectsEveryCommand : reading.phase ≠ .idle ∧ ∃ u, quietEdge reading = .next u :=
  ⟨by decide, _, rfl⟩
theorem witness_IllegalByteOnlyRecordsTheError :
    let s := wr tiny 0#3 0x0C#8
    Ready s ∧ s.rstNow = false ∧ s.phase = .idle ∧
      busOf s.cfg s.hostNow.access = .ok { sel := true, we := true, addr := 0#3, wdata := 0x0C#8 } ∧
      legalByte 0x0C#8 = false := ⟨⟨by decide, rfl⟩, rfl, rfl, rfl, by decide⟩
theorem witness_CommandAtCompletionEdgeIsRejected :
    let s := wr (inPhase .recov 0 2#3 0#3) 0#3 0x01#8
    s.rstNow = false ∧ s.completionEdge = true ∧ writesReg s 0#3 = true ∧ s.cmderr = false ∧ ∃ t, step s = .next t :=
  ⟨rfl, rfl, rfl, rfl, _, rfl⟩
/-- The sampling clause at its first and last slot, and the clause of an edge that does not touch `rxbuf`. -/
theorem witness_RxbufTakesOneBitPerSlot :
    (∃ t, step (inPhase .rwait 0 5#3 0#3) = .next t) ∧ (∃ t, step (inPhase .rwait 0 5#3 7#3) = .next t) ∧
      acceptsNow tiny = false ∧ ∃ t, step tiny = .next t := ⟨⟨_, rfl⟩, ⟨_, rfl⟩, rfl, _, rfl⟩
/-- Without a stage, with one and with two. -/
theorem witness_SynchronizerShifts :
    tiny.sync = [] ∧ (∃ t, step { tiny with sync := [true] } = .next t) ∧
      ∃ t, step { tiny with sync := [false, true] } = .next t := ⟨rfl, ⟨_, rfl⟩, _, rfl⟩
theorem witness_PhaseCountsDown :
    let s := inPhase .rstLow 1 1#3 0#3
    s.rstNow = false ∧ s.phase ≠ .idle ∧ 0 < s.cnt ∧ ∃ t, step s = .next t := ⟨rfl, by decide, by decide, _, rfl⟩
/-- Each phase that ends: the three of OW_RESET, INIT of a write and of a read, the three slot bodies, and REC at slots 6
and 7 of a byte command and in a bit command. -/
theorem witness_PhaseEndsAsTheTransitionTableSays :
    (∃ t, step (inPhase .rstLow 0 1#3 0#3) = .next t) ∧ (∃ t, step (inPhase .rstWait 0 1#3 0#3) = .next t) ∧
    (∃ t, step (inPhase .rstRem 0 1#3 0#3) = .next t) ∧ (∃ t, step (inPhase .init 0 4#3 0#3) = .next t) ∧
    (∃ t, step (inPhase .init 0 3#3 0#3) = .next t) ∧ (∃ t, step (inPhase .wbody 0 2#3 0#3) = .next t) ∧
    (∃ t, step (inPhase .rwait 0 5#3 7#3) = .next t) ∧ (∃ t, step (inPhase .rpad 0 5#3 7#3) = .next t) ∧
    (∃ t, step (inPhase .recov 0 5#3 6#3) = .next t) ∧ (∃ t, step (inPhase .recov 0 5#3 7#3) = .next t) ∧
    (∃ t, step (inPhase .recov 0 3#3 0#3) = .next t) :=
  ⟨⟨_, rfl⟩, ⟨_, rfl⟩, ⟨_, rfl⟩, ⟨_, rfl⟩, ⟨_, rfl⟩, ⟨_, rfl⟩, ⟨_, rfl⟩, ⟨_, rfl⟩, ⟨_, rfl⟩, ⟨_, rfl⟩, ⟨_, rfl⟩⟩
theorem witness_LineDriveTable :
    { tiny with host := [{ rst := true, access := .noAccess }] : State }.rstNow = true ∧ tiny.rstNow = false ∧
      (inPhase .wbody 2 2#3 0#3).owOe = true := by decide
/-- With one stage, and with none. -/
theorem witness_SampleSeesThePadSyncStagesEarlier :
    let s := { tiny with sync := [true] }
    undisturbed s.sync.length s ∧ (∃ t, runs s.sync.length s = .next t) ∧ runs tiny.sync.length tiny = .next tiny :=
  ⟨by simp [undisturbed, tiny, State.resetWith], ⟨_, rfl⟩, rfl⟩
/-- Each clause, the last one at both its ends; an unselected port and a write. -/
theorem witness_ReadsReturnTheRegisters :
    (∃ b : Bus, b.sel = true ∧ b.we = false ∧ b.addr = 0#3) ∧ (∃ b : Bus, b.sel = true ∧ b.we = false ∧ b.addr = 1#3) ∧
    (∃ b : Bus, b.sel = true ∧ b.we = false ∧ b.addr = 2#3) ∧ (∃ b : Bus, b.sel = true ∧ b.we = false ∧ b.addr = 3#3) ∧
    (∃ b : Bus, b.sel = true ∧ b.we = false ∧ b.addr = 4#3) ∧
    (∃ b : Bus, b.sel = true ∧ b.we = false ∧ b.addr = 5#3 ∧ 5 ≤ b.addr.toNat) ∧
    (∃ b : Bus, b.sel = true ∧ b.we = false ∧ b.addr = 7#3 ∧ 5 ≤ b.addr.toNat) ∧
    noBus.sel = false ∧ ∃ b : Bus, b.we = true :=
  ⟨⟨⟨true, false, 0#3, 0#8⟩, rfl, rfl, rfl⟩, ⟨⟨true, false, 1#3, 0#8⟩, rfl, rfl, rfl⟩,
    ⟨⟨true, false, 2#3, 0#8⟩, rfl, rfl, rfl⟩, ⟨⟨true, false, 3#3, 0#8⟩, rfl, rfl, rfl⟩,
    ⟨⟨true, false, 4#3, 0#8⟩, rfl, rfl, rfl⟩, ⟨⟨true, false, 5#3, 0#8⟩, rfl, rfl, rfl, by decide⟩,
    ⟨⟨true, false, 7#3, 0#8⟩, rfl, rfl, rfl, by decide⟩, rfl, ⟨true, true, 0#3, 0#8⟩, rfl⟩
theorem witness_ReadsAndIgnoredWritesHaveNoEffect :
    ((3#3 : RegAddr) = 3#3 ∨ (3#3 : RegAddr) = 5#3) ∧ ((7#3 : RegAddr) = 6#3 ∨ (7#3 : RegAddr) = 7#3) ∧
      ∃ t, step (wr tiny 3#3 0x77#8) = .next t := ⟨by decide, by decide, _, rfl⟩
theorem witness_StatusWriteClearsByOnes : Ready tiny ∧ ∃ u, step (tiny.withAccess .noAccess) = .next u :=
  ⟨ready_tiny, _, rfl⟩
theorem witness_InterruptIsEnabledDoneOrError :
    let s := { reading with host := [{ rst := true, access := .noAccess }] }
    s.rstNow = true ∧ ∃ t, step s = .next t := ⟨rfl, _, rfl⟩
/-- For both reset statements, with no synchronizer and with two stages, and a write lost in the same cycle. -/
theorem witness_ResetEdgeForcesTheResetState :
    let s := { reading with host := [{ rst := true, access := .memWrite 0x40 0x01#8 }] }
    let u := { s with cfg := { tinyCfg with syncStages := 2 } }
    s.cfg.wellFormed = true ∧ s.rstNow = true ∧ s.cfg.syncStages = 0 ∧ (∃ t, step s = .next t) ∧
      1 ≤ u.cfg.syncStages ∧ ∃ t, step u = .next t := ⟨by decide, rfl, rfl, ⟨_, rfl⟩, by decide, _, rfl⟩
theorem witness_WellFormedConfigurations : tinyCfg.wellFormed = true ∧ (Config.standard 1 0).wellFormed = true := by
  decide
theorem witness_DefaultParametersAreLegal :
    1 ≤ 1 ∧ { Config.standard 125 0 with cntW := 16 : Config }.wellFormed = true := by decide
/-- The invariant holds in the middle of a read, with a bit already sampled. -/
theorem witness_Inv : Inv reading where
  config := by decide
  stages := by decide
  counter := by decide
  operation := by decide
  slot := by decide
  error := by decide
  errorCode := by decide
  doneLow := by decide
  unsampled := by
    intro _ _ k hk
    have hk : 3 ≤ k := hk
    rcases Nat.lt_or_ge k 8 with h | h
    · have : k = 3 ∨ k = 4 ∨ k = 5 ∨ k = 6 ∨ k = 7 := by omega
      rcases this with rfl | rfl | rfl | rfl | rfl <;> decide
    · exact BitVec.getLsbD_of_ge _ _ h
  bitSent := by decide
theorem witness_InvariantHoldsAtReset : tinyCfg.wellFormed = true := by decide
theorem witness_EveryStepKeepsTheInvariant : Inv reading ∧ ∃ t, step reading = .next t := ⟨witness_Inv, _, rfl⟩
theorem witness_ControllerNeverHangs : Inv reading ∧ reading.launched = true := ⟨witness_Inv, rfl⟩
/-- The hypotheses, then each case of `bitidx`: a reset edge and an acceptance; REC at slots 0, 6 and 7 of a byte command
and in a bit command; and an edge within REC. -/
theorem witness_CountersNeverWrap : (Inv reading ∧ reading.rstNow = false ∧ ∃ t, step reading = .next t) ∧
    (∃ t, step { reading with host := [{ rst := true, access := .noAccess }] } = .next t ∧ t.bitidx = 0#3) ∧
    (∃ t, step (wr { tiny with bitidx := 7#3 } 0#3 0x05#8) = .next t ∧ t.bitidx = 0#3) ∧
    (∃ t, step (inPhase .recov 0 4#3 0#3) = .next t ∧ t.bitidx = 1#3) ∧
    (∃ t, step (inPhase .recov 0 5#3 6#3) = .next t ∧ t.bitidx = 7#3) ∧
    (∃ t, step (inPhase .recov 0 5#3 7#3) = .next t ∧ t.bitidx = 7#3) ∧
    (∃ t, step (inPhase .recov 0 3#3 0#3) = .next t ∧ t.bitidx = 0#3) ∧
    ∃ t, step (inPhase .recov 1 5#3 3#3) = .next t ∧ t.bitidx = 3#3 :=
  ⟨⟨witness_Inv, rfl, _, rfl⟩, ⟨_, rfl, rfl⟩, ⟨_, rfl, rfl⟩, ⟨_, rfl, rfl⟩, ⟨_, rfl, rfl⟩, ⟨_, rfl, rfl⟩, ⟨_, rfl, rfl⟩,
    _, rfl, rfl⟩
/-- For every statement about a whole command, and for the loopback: a host that writes TXDATA, issues a second command
and clears DONE while the first one runs. -/
theorem witness_whole_commands :
    let s := { tiny with host := [{ rst := false, access := .noAccess }, { rst := false, access := .memWrite 0x42 0x55#8 },
      { rst := false, access := .memWrite 0x40 0x01#8 }, { rst := false, access := .memWrite 0x41 0x02#8 }] }
    Ready s ∧ s.phase = .idle ∧
      undisturbed (durationCycles s.cfg .owWriteByte + 1 + durationCycles s.cfg .owReadByte) s.endCycle ∧
      undisturbed (durationCycles s.cfg .owReset) s.endCycle := by
  have key : ∀ n, undisturbed n ({ tiny with host := [{ rst := false, access := .noAccess }, { rst := false, access := .memWrite 0x42 0x55#8 },
      { rst := false, access := .memWrite 0x40 0x01#8 }, { rst := false, access := .memWrite 0x41 0x02#8 }] } : State).endCycle := by
    intro n h hh
    have hh := List.mem_of_mem_take hh
    simp [State.endCycle] at hh
    rcases hh with rfl | rfl | rfl <;> exact ⟨rfl, _, rfl⟩
  exact ⟨⟨by decide, rfl⟩, rfl, key _, key _⟩
theorem witness_BusyAndOldResultsUntilCompletion :
    Ready tiny ∧ tiny.phase = .idle ∧ (∃ t, exec .owReset tiny = .next t) ∧ 8 < durationCycles tiny.cfg .owReset :=
  ⟨ready_tiny, rfl, ⟨_, rfl⟩, by decide⟩
/-- R76's pad clause: with no synchronizer the sample is the level in the sampling cycle itself, five edges after `a`. -/
theorem witness_OwResetCommitsThePresenceSample :
    5 + tiny.sync.length + 1 = tiny.cfg.cycles (tiny.cfg.tRstl + tiny.cfg.tMsp) := by decide
/-- The loopback's premise at a state: read slot `k` samples what write slot `k` sent. -/
def loopback (s : State) : Bool :=
  match exec .owWriteByte s with
  | .next t =>
    match runs (8 * writeSlotCycles s.cfg) t.endCycle with
    | .next c =>
      match exec .owReadByte c with
      | .next t' => (List.range 8).all fun k =>
          sampleAtEdge (k * readSlotCycles s.cfg + s.cfg.cycles (s.cfg.tInit + s.cfg.tRds)) t'.endCycle ==
            ((driveTrace (8 * writeSlotCycles s.cfg) t.endCycle)[k * writeSlotCycles s.cfg + s.cfg.cycles s.cfg.tInit]?).map
              (fun oe => !oe)
      | .fault _ => false
      | .refused _ => false
    | .fault _ => false
    | .refused _ => false
  | .fault _ => false
  | .refused _ => false
/-- The line high up to the first read sample and low after it, for the byte 0x01. -/
theorem witness_LoopbackReturnsTheByte :
    loopback { tiny with txdata := 0x01#8, line := List.replicate 44 true ++ List.replicate 60 false } = true := by decide
theorem witness_CommandLeavesOtherRegistersAlone : Ready tiny ∧ tiny.phase = .idle ∧
    silent (durationCycles tiny.cfg .owReadBit)
      { tiny with host := [{ rst := false, access := .noAccess }, { rst := false, access := .noAccess }] }.endCycle := by
  refine ⟨ready_tiny, rfl, ?_⟩
  intro h hh
  have hh := List.mem_of_mem_take hh
  simpa [State.endCycle] using hh
/-- Two states that differ in the host's access alone. -/
theorem witness_HostCannotDisturbACommand :
    let a := reading
    let b := wr reading 0#3 0x01#8
    (commandView a = commandView b ∧ a.line = b.line ∧ a.cycle = b.cycle ∧ a.phase ≠ .idle ∧ a.done = false ∧
      a.rstNow = false ∧ b.rstNow = false) ∧ (∃ t, step a = .next t) ∧ ∃ t, step b = .next t :=
  ⟨⟨rfl, rfl, rfl, by decide, rfl, rfl, rfl⟩, ⟨_, rfl⟩, _, rfl⟩
/-- Two states that differ in the line's level alone. -/
theorem witness_LineCannotChangeThePacing :
    let a := reading
    let b := { reading with line := [false], rxbuf := 0x00#8 }
    (pacing a = pacing b ∧ a.phase ≠ .idle ∧ a.rstNow = false ∧ b.rstNow = false) ∧ (∃ t, step a = .next t) ∧
      ∃ t, step b = .next t := ⟨by decide, ⟨_, rfl⟩, _, rfl⟩
theorem witness_WaitIdleEndsWhenBusyFalls :
    let y : System := { ctl := reading, prog := [.waitIdle] }
    Ready y.ctl ∧ Inv y.ctl ∧ y.halted = false ∧ y.prog = [.waitIdle] := ⟨⟨by decide, rfl⟩, witness_Inv, rfl, rfl⟩
/-- Step 9 after the two STATUS bytes and the two bytes of W3. -/
theorem witness_TemperatureDecode :
    let y : System := { ctl := reading, prog := [.decode], reads := [0x46#8, 0x46#8, 0x91#8, 0x01#8] }
    Ready y.ctl ∧ Inv y.ctl ∧ y.halted = false ∧ y.prog = [.decode] ∧ y.reads = [0x46#8, 0x46#8] ++ [0x91#8, 0x01#8] :=
  ⟨⟨by decide, rfl⟩, witness_Inv, rfl, rfl, rfl⟩
/-- The STATUS bytes of P1 and of P1-absent. -/
theorem witness_StartupCheckHaltsOnAbsence :
    let y (v : Byte) : System := { ctl := reading, prog := [.haltIfAbsent], reads := [v] }
    Ready (y 0x46#8).ctl ∧ Inv (y 0x46#8).ctl ∧ (y 0x46#8).halted = false ∧ (y 0x46#8).reads = [] ++ [0x46#8] ∧
      (0x46#8 : Byte).getLsbD 2 = true ∧ (y 0x42#8).reads = [] ++ [0x42#8] ∧ (0x42#8 : Byte).getLsbD 2 = false :=
  ⟨⟨by decide, rfl⟩, witness_Inv, rfl, rfl, by decide, rfl, by decide⟩

end Sys2Proof.Tests
end

section
/-! PROOFS of the statements of 00_scope.md: the structural constraints on a configuration (R8). -/

namespace Sys2Proof

open Sys2Proof.Machine

/-- A scaled maximum is within a bound iff every scaled member is. -/
theorem foldl_max_mul_le {l : List Nat} {a m n : Nat} :
    l.foldl max a * m ≤ n ↔ a * m ≤ n ∧ ∀ t ∈ l, t * m ≤ n := by
  induction l generalizing a with
  | nil => simp
  | cons x xs ih => rw [List.foldl_cons, ih, ← Nat.mul_max_mul_right, max_le_iff, List.forall_mem_cons, and_assoc]

/-- R8's last constraint, which the model checks on the longest phase, says so of every phase. -/
theorem longestPhase_mul_le {c : Config} {m n : Nat} :
    c.longestPhase * m ≤ n ↔
      ∀ t ∈ [c.tRstl, c.tMsp, c.tRstrem, c.tInit, c.tSlot - c.tInit, c.tRds, c.tRpad, c.tRec], t * m ≤ n := by
  rw [Config.longestPhase, foldl_max_mul_le, Nat.zero_mul]
  exact and_iff_right (Nat.zero_le n)

/-- R8's constraints, with the last one said of each phase. -/
theorem wellFormed_iff {c : Config} :
    c.wellFormed = true ↔
      (1 ≤ c.tRstl ∧ 1 ≤ c.tMsp ∧ 1 ≤ c.tRstrem ∧ 1 ≤ c.tInit ∧ 1 ≤ c.tSlot ∧ 1 ≤ c.tRds ∧ 1 ≤ c.tRpad ∧
        1 ≤ c.tRec) ∧
      c.tInit + 1 ≤ c.tSlot ∧ 1 ≤ c.cyclesPerUs ∧
      ∀ t ∈ [c.tRstl, c.tMsp, c.tRstrem, c.tInit, c.tSlot - c.tInit, c.tRds, c.tRpad, c.tRec],
        t * c.cyclesPerUs ≤ 2 ^ c.cntW := by
  rw [← longestPhase_mul_le]
  simp only [Config.wellFormed, Bool.and_eq_true, decide_eq_true_eq, and_assoc]

/-- The configuration is checked before anything else, `rst` included. -/
theorem step_of_not_wellFormed {s : State} (hc : s.cfg.wellFormed = false) : step s = .refused .badConfig :=
  if_pos hc

/-- `2 ^ 15 < 480 * 125 ≤ 2 ^ 16`; `BASE` has no part in it. -/
theorem cntW_standard_125 (b : Nat) : (Config.standard 125 b).cntW = 16 := by
  change Config.leastWidth (480 * 125) = 16
  decide

/-- Settles O41: the check comes first in a step, and the bound on the longest phase is the bound on each phase. -/
theorem wellFormedConfigurationsMeetTheConstraints : Obligations.WellFormedConfigurationsMeetTheConstraints :=
  ⟨fun _ => step_of_not_wellFormed, cntW_standard_125, fun _ => wellFormed_iff⟩

end Sys2Proof
end

section
/-! PROOFS of the statements of 10_state.md: DONE (R23), CMDERR and ERRCODE (R25), the drive table (R33, R34) and the
input synchronizer (R38). -/

namespace Sys2Proof

open Sys2Proof.Machine

/-! DONE (R23). -/

/-- A completion edge ends a phase, and acceptance needs IDLE: cases 2 and 3 of R23 exclude each other. -/
theorem not_acceptsNow_of_completionEdge {s : State} (hc : s.completionEdge = true) : acceptsNow s = false := by
  have hb : s.phase ≠ .idle := fun hi => by simp [State.completionEdge, hi] at hc
  simp [acceptsNow, hb]

/-- DONE after the access's part of the edge: an acceptance and a W1C clear it, the W1C not at a completion edge. -/
theorem accessEffect_done (s u : State) :
    (accessEffect (port s) s u).done =
      if acceptsNow s then false
      else if writesReg s 1#3 && (port s).wdata.getLsbD 1 && !s.completionEdge then false
      else u.done := by
  cases ha : acceptsNow s with
  | true =>
    obtain ⟨i, -, -, -, he⟩ := accessEffect_accept (u := u) ha
    simp [he]
  | false =>
    cases hj : rejectsNow s with
    | true =>
      obtain ⟨hw, -, he⟩ := accessEffect_reject (u := u) hj
      simp [he, writesReg_unique hw (show 0#3 ≠ 1#3 by decide)]
    | false =>
      rw [(accessEffect_other ha hj).2]
      cases hs : writesReg s 1#3 with
      | true => simp
      | false => simp only [Bool.false_eq_true, if_false, Bool.false_and]; split_ifs <;> rfl

/-- DONE after any edge, by the five cases of R23. -/
theorem step_done {s t : State} (h : step s = .next t) :
    t.done =
      if s.rstNow then false
      else if s.completionEdge then true
      else if acceptsNow s then false
      else if writesReg s 1#3 && (port s).wdata.getLsbD 1 then false
      else s.done := by
  cases hr : s.rstNow with
  | true => simp [step_with_reset h hr]
  | false =>
    obtain ⟨u, hu, -, rfl⟩ := step_without_reset h hr
    rw [State.endCycle_done, accessEffect_done, fsmEdge_done hu]
    cases hc : s.completionEdge with
    | true => simp [not_acceptsNow_of_completionEdge hc]
    | false => simp

/-- Settles O16: the five cases are `step_done`, and an accepting edge is in IDLE, where no phase ends. -/
theorem doneFollowsItsPriorities : Obligations.DoneFollowsItsPriorities :=
  fun _ _ h => ⟨step_done h, fun ⟨hc, ha⟩ => by simp [not_acceptsNow_of_completionEdge hc] at ha⟩

/-! CMDERR and ERRCODE (R25). -/

/-- A rejection is a write of CMD, so no write of STATUS: cases 2 and 3 of R25 exclude each other. -/
theorem not_writesStatus_of_rejectsNow {s : State} (hj : rejectsNow s = true) : writesReg s 1#3 = false :=
  writesReg_unique (accessEffect_reject (u := s) hj).1 (by decide)

/-- CMDERR and ERRCODE after the access's part of the edge: a rejection records the first error, a W1C clears both. -/
theorem accessEffect_error (s u : State) :
    ((accessEffect (port s) s u).cmderr, (accessEffect (port s) s u).errcode) =
      if rejectsNow s then
        (true, if u.cmderr then u.errcode else if s.phase ≠ .idle then 2#2 else 1#2)
      else if writesReg s 1#3 && (port s).wdata.getLsbD 3 then (false, 0#2)
      else (u.cmderr, u.errcode) := by
  cases hj : rejectsNow s with
  | true => simp [(accessEffect_reject hj).2.2]
  | false =>
    cases ha : acceptsNow s with
    | true =>
      obtain ⟨i, -, -, hw, he⟩ := accessEffect_accept (u := u) ha
      simp [he, writesReg_unique hw (show 0#3 ≠ 1#3 by decide)]
    | false =>
      rw [(accessEffect_other ha hj).2]
      cases hs : writesReg s 1#3 with
      | true =>
        rw [if_pos rfl, if_neg Bool.false_ne_true, State.acknowledge_cmderr, State.acknowledge_errcode, Bool.true_and]
        split_ifs <;> rfl
      | false => simp only [Bool.false_eq_true, if_false, Bool.false_and]; split_ifs <;> rfl

/-- CMDERR and ERRCODE after any edge, by the four cases of R25. -/
theorem step_error {s t : State} (h : step s = .next t) :
    (t.cmderr, t.errcode) =
      if s.rstNow then (false, 0#2)
      else if rejectsNow s then
        (true, if s.cmderr then s.errcode else if s.phase ≠ .idle then 2#2 else 1#2)
      else if writesReg s 1#3 && (port s).wdata.getLsbD 3 then (false, 0#2)
      else (s.cmderr, s.errcode) := by
  cases hr : s.rstNow with
  | true => simp [step_with_reset h hr]
  | false =>
    obtain ⟨u, hu, -, rfl⟩ := step_without_reset h hr
    obtain ⟨-, -, -, hcm, her, -⟩ := fsmEdge_frame hu
    rw [State.endCycle_cmderr, State.endCycle_errcode, accessEffect_error, hcm, her]
    rfl

/-- CMDERR after any edge. -/
theorem step_cmderr {s t : State} (h : step s = .next t) :
    t.cmderr =
      if s.rstNow then false
      else if rejectsNow s then true
      else if writesReg s 1#3 && (port s).wdata.getLsbD 3 then false
      else s.cmderr := by
  simpa only [apply_ite Prod.fst] using congrArg Prod.fst (step_error h)

/-- ERRCODE after any edge. -/
theorem step_errcode {s t : State} (h : step s = .next t) :
    t.errcode =
      if s.rstNow then 0#2
      else if rejectsNow s then (if s.cmderr then s.errcode else if s.phase ≠ .idle then 2#2 else 1#2)
      else if writesReg s 1#3 && (port s).wdata.getLsbD 3 then 0#2
      else s.errcode := by
  simpa only [apply_ite Prod.snd] using congrArg Prod.snd (step_error h)

/-- No edge produces the reserved ERRCODE: a rejection records BUSY or ILLEGAL, and everything else clears or keeps. -/
theorem step_errcode_ne_reserved {s t : State} (h : step s = .next t) (he : s.errcode ≠ 3#2) : t.errcode ≠ 3#2 := by
  rw [step_errcode h]
  split_ifs
  · decide
  · exact he
  · decide
  · decide
  · decide
  · exact he

/-- An edge sets, clears or keeps CMDERR and a nonzero ERRCODE together. -/
theorem step_errcode_iff_cmderr {s t : State} (h : step s = .next t) (he : s.errcode ≠ 0#2 ↔ s.cmderr = true) :
    t.errcode ≠ 0#2 ↔ t.cmderr = true := by
  rw [step_errcode h, step_cmderr h]
  split_ifs with _ _ hc
  · simp
  · simp [he.2 hc]
  · simp
  · simp
  · simp
  · exact he

/-- Settles O17: each field's cases are those of one edge, and the two facts on ERRCODE follow case by case. -/
theorem cmderrAndErrcodeKeepTheFirstError : Obligations.CmderrAndErrcodeKeepTheFirstError :=
  fun _ _ h => ⟨step_cmderr h, step_errcode h, fun ⟨hj, hw⟩ => by simp [not_writesStatus_of_rejectsNow hj] at hw,
    step_errcode_ne_reserved h, step_errcode_iff_cmderr h⟩

/-! The line (R33, R34, R38). -/

/-- The rows of R33 in which the controller drives the line low. -/
theorem drives_iff (s : State) :
    s.drives = true ↔ s.phase = .rstLow ∨ s.phase = .init ∨ (s.phase = .wbody ∧ s.txBit = false) := by
  cases hp : s.phase <;> simp [State.drives, hp]

/-- Settles O30: `ow_oe` is the table of `drives_iff` gated by `rst`, and a driven line is low. -/
theorem lineDriveTable : Obligations.LineDriveTable := by
  intro s
  refine ⟨fun hr => ?_, fun hi => ?_, fun hr => ?_, fun ho => ?_⟩
  · simp [State.owOe, hr]
  · simp [State.owOe, State.drives, hi]
  · have hoe : s.owOe = s.drives := by simp [State.owOe, hr]
    rw [hoe]
    exact drives_iff s
  · simp [State.owI, ho]

/-- The synchronizer after an edge with `rst = 0`: one shift, whatever the FSM and the host do. -/
theorem step_sync {s t : State} (h : step s = .next t) (hr : s.rstNow = false) :
    t.sync = (s.owI :: s.sync).dropLast := by
  obtain ⟨u, hu, -, rfl⟩ := step_without_reset h hr
  obtain ⟨-, -, hsync, -⟩ := accessEffect_frame (port s) s u
  obtain ⟨-, -, -, -, -, -, -, -, -, -, -, hshift⟩ := fsmEdge_frame hu
  rw [State.endCycle_sync, hsync, hshift]

/-- `line_sync` is the last stage where there is one. -/
theorem lineSync_of_last_stage {s : State} {k : Nat} (hk : k < s.sync.length) (hl : k + 1 = s.sync.length) :
    s.lineSync = s.sync[k] := by
  have hne : s.sync ≠ [] := List.ne_nil_of_length_pos (by omega)
  rw [State.lineSync, List.getLastD_eq_getLast?, List.getLast?_eq_some_getLast hne, Option.getD_some,
    List.getLast_eq_getElem]
  simp [← hl]

/-- Settles O26: `step_sync` stage by stage, the reset edge, and the last stage. -/
theorem synchronizerShifts : Obligations.SynchronizerShifts := by
  refine ⟨fun s t h hr => ?_, fun s t h hr => ?_, fun s h0 => ?_, fun s k hk hl => lineSync_of_last_stage hk hl⟩
  · have hsync := step_sync h hr
    exact ⟨by simp [hsync], fun _ => by simp [hsync], fun _ _ _ => by simp [hsync]⟩
  · simp [step_with_reset h hr]
  · simp [State.lineSync, h0]

end Sys2Proof
end

section
/-! PROOFS of the statements of 20_memory.md: `bus_rdata`, register by register (R50). -/

namespace Sys2Proof.Machine

/-- A read shows the register at its address. -/
theorem rdata_of_read {s : State} {bus : Bus} (hsel : bus.sel = true) (hwe : bus.we = false) :
    s.rdata bus = s.regRead bus.addr := by
  simp [State.rdata, hsel, hwe]

/-- An unselected port and a write show 0x00. -/
theorem rdata_of_no_read {s : State} {bus : Bus} (h : bus.sel = false ∨ bus.we = true) : s.rdata bus = 0x00#8 := by
  rcases h with hsel | hwe
  · simp [State.rdata, hsel]
  · simp [State.rdata, hwe]

/-- The port signals of a cycle's access determine its `bus_rdata`. -/
theorem busRdata_of_busOf {s : State} {bus : Bus} (h : busOf s.cfg s.hostNow.access = .ok bus) :
    s.busRdata = s.rdata bus := by
  simp only [State.busRdata, h]

@[simp] theorem State.regRead_cmd (s : State) : s.regRead 0#3 = 0x00#8 := rfl
@[simp] theorem State.regRead_status (s : State) : s.regRead 1#3 = s.statusByte := rfl
@[simp] theorem State.regRead_txdata (s : State) : s.regRead 2#3 = s.txdata := rfl
@[simp] theorem State.regRead_rxdata (s : State) : s.regRead 3#3 = s.rxdata := rfl
@[simp] theorem State.regRead_ctrl (s : State) : s.regRead 4#3 = s.ctrlByte := rfl

/-- The addresses past CTRL hold no register. -/
theorem State.regRead_unassigned (s : State) {a : RegAddr} (ha : 5 ≤ a.toNat) : s.regRead a = 0x00#8 := by
  have hlt : a.toNat < 8 := a.isLt
  have hcases : a.toNat = 5 ∨ a.toNat = 6 ∨ a.toNat = 7 := by omega
  rcases hcases with h | h | h <;> simp [State.regRead, h]

/-- The CTRL byte is IRQ_EN in bit 0 under seven zeros. -/
theorem State.ctrlByte_eq (s : State) : s.ctrlByte = if s.irqEn then 0x01#8 else 0x00#8 := by
  cases h : s.irqEn <;> simp [State.ctrlByte, h]

/-- BUSY has no storage of its own (R22). -/
theorem State.busy_eq_true_iff (s : State) : s.busy = true ↔ s.phase ≠ .idle := decide_eq_true_iff

/-- The one-bit fields of the STATUS byte, and its zero in bit 7. -/
theorem State.statusByte_flags (s : State) :
    s.statusByte.getLsbD 7 = false ∧ s.statusByte.getLsbD 6 = s.lineSync ∧ s.statusByte.getLsbD 3 = s.cmderr ∧
      s.statusByte.getLsbD 2 = s.present ∧ s.statusByte.getLsbD 1 = s.done ∧ s.statusByte.getLsbD 0 = s.busy := by
  simp only [State.statusByte, BitVec.getLsbD_append, BitVec.getLsbD_ofBool]
  simp

/-- ERRCODE is bits 5 and 4 of the STATUS byte, above four one-bit fields. -/
theorem State.statusByte_errcode (s : State) : s.statusByte.extractLsb' 4 2 = s.errcode := by
  refine BitVec.eq_of_getLsbD_eq fun i hi => ?_
  rw [BitVec.getLsbD_extractLsb']
  simp only [State.statusByte, BitVec.getLsbD_append]
  interval_cases i <;> simp

end Sys2Proof.Machine

namespace Sys2Proof

open Sys2Proof.Machine

/-- Settles O32: a read shows `regRead` of its address, and each address has its own lemma. -/
theorem readsReturnTheRegisters : Obligations.ReadsReturnTheRegisters := by
  intro s bus
  refine ⟨busRdata_of_busOf, fun hs hw ha => ?_, fun hs hw ha => ?_, fun hs hw ha => ?_, fun hs hw ha => ?_,
    fun hs hw ha => ?_, fun hs hw ha => ?_, rdata_of_no_read⟩
  · rw [rdata_of_read hs hw, ha, State.regRead_cmd]
  · obtain ⟨hzero, hline, hcmderr, hpresent, hdone, hbusy⟩ := s.statusByte_flags
    rw [rdata_of_read hs hw, ha, State.regRead_status, hbusy]
    exact ⟨hzero, hline, s.statusByte_errcode, hcmderr, hpresent, hdone, s.busy_eq_true_iff⟩
  · rw [rdata_of_read hs hw, ha, State.regRead_txdata]
  · rw [rdata_of_read hs hw, ha, State.regRead_rxdata]
  · rw [rdata_of_read hs hw, ha, State.regRead_ctrl, State.ctrlByte_eq]
  · rw [rdata_of_read hs hw, State.regRead_unassigned s ha]

end Sys2Proof
end

section
/-! PROOFS of the statements of 30_encoding.md: the map of the command bytes (R64), and the illegal ones (R63). -/

namespace Sys2Proof

open Sys2Proof.Machine

/-! The 256 bytes (R60 to R64). -/

/-- A byte is its RSV, B and OP fields (R60). -/
theorem fields_append (v : Byte) : rsvField v ++ bField v ++ opField v = v := by
  have hlow : bField v ++ opField v = v.extractLsb' 0 4 :=
    BitVec.extractLsb'_append_extractLsb'_eq_extractLsb' rfl
  have hall : rsvField v ++ v.extractLsb' 0 4 = v.extractLsb' 0 8 :=
    BitVec.extractLsb'_append_extractLsb'_eq_extractLsb' rfl
  rw [BitVec.append_assoc, hlow]
  simpa using hall

/-- A byte that decodes has RSV = 0 (R62). -/
theorem rsvField_of_decodeByte {v : Byte} {i : Instr} (h : decodeByte v = .ok i) : rsvField v = 0#4 := by
  by_contra hr
  simp [decodeByte, hr] at h

/-- The one byte that decodes to a command is its encoding. -/
theorem eq_encode_of_decodeByte {v : Byte} {i : Instr} (h : decodeByte v = .ok i) : v = encode i := by
  obtain ⟨hop, hb⟩ := fields_of_decodeByte v i h
  calc v = rsvField v ++ bField v ++ opField v := (fields_append v).symm
    _ = encode i := by rw [rsvField_of_decodeByte h, encode, hop, hb]; rfl

/-- The encodings of the commands, the operand of OW_WRITE_BIT at both its values, are the six legal bytes of R64. -/
theorem encode_mem (i : Instr) : encode i ∈ [0x01#8, 0x02#8, 0x03#8, 0x04#8, 0x05#8, 0x0A#8] := by
  cases i with
  | owReset => decide
  | owWriteBit b => revert b; decide
  | owReadBit => decide
  | owWriteByte => decide
  | owReadByte => decide

/-- A byte that decodes is one of the six. -/
theorem mem_of_decodeByte {v : Byte} {i : Instr} (h : decodeByte v = .ok i) :
    v ∈ [0x01#8, 0x02#8, 0x03#8, 0x04#8, 0x05#8, 0x0A#8] :=
  eq_encode_of_decodeByte h ▸ encode_mem i

/-- Settles O1: the six bytes decode as the model's own lemmas say, and no other byte decodes. -/
theorem commandByteMap : Obligations.CommandByteMap := by
  refine ⟨decodeByte_owReset, decodeByte_owWriteBit_zero, decodeByte_owReadBit, decodeByte_owWriteByte,
    decodeByte_owReadByte, decodeByte_owWriteBit_one, fun v h1 h2 h3 h4 h5 hA => ?_⟩
  cases hd : decodeByte v with
  | error e => exact ⟨e, rfl⟩
  | ok i =>
    have hv := mem_of_decodeByte hd
    simp [h1, h2, h3, h4, h5, hA] at hv

/-- `legal(v)` of R62 holds of the six bytes of R64 alone. -/
theorem legalByte_iff_mem (v : Byte) :
    legalByte v = true ↔ v ∈ [0x01#8, 0x02#8, 0x03#8, 0x04#8, 0x05#8, 0x0A#8] := by
  refine ⟨fun h => ?_, fun h => ?_⟩
  · obtain ⟨i, hd⟩ := (legalByte_iff v).mp h
    exact mem_of_decodeByte hd
  · have hsix : ∀ w ∈ [0x01#8, 0x02#8, 0x03#8, 0x04#8, 0x05#8, 0x0A#8], legalByte w = true := by decide
    exact hsix v h

/-- The illegal bytes by their fields (R63): no such OP, a stray operand bit, or reserved bits. -/
theorem legalByte_eq_false_iff (v : Byte) :
    legalByte v = false ↔
      ((v.extractLsb' 0 3 = 0#3 ∨ v.extractLsb' 0 3 = 6#3 ∨ v.extractLsb' 0 3 = 7#3) ∨
        (v.getLsbD 3 = true ∧ v.extractLsb' 0 3 ≠ 2#3) ∨ v.extractLsb' 4 4 ≠ 0#4) := by
  have hops : ∀ (op : BitVec 3) (b : Bool),
      (op == 2#3 || (b == false && [1#3, 3#3, 4#3, 5#3].contains op)) = false ↔
        (op = 0#3 ∨ op = 6#3 ∨ op = 7#3) ∨ (b = true ∧ op ≠ 2#3) := by decide
  rw [legalByte, Bool.and_eq_false_iff, hops, beq_eq_false_iff_ne, or_comm, or_assoc]

/-- The legal numbers below 256 are the six of R64. -/
theorem legalByte_ofNat_iff {n : Nat} (hn : n < 256) :
    legalByte (BitVec.ofNat 8 n) = true ↔ n ∈ ({1, 2, 3, 4, 5, 10} : Finset Nat) := by
  have hmod : n % 256 = n := Nat.mod_eq_of_lt hn
  rw [legalByte_iff_mem]
  simp [← BitVec.toNat_inj, hmod]

/-- The illegal bytes are the 256 without the six of R64. -/
theorem length_illegal_bytes : ((List.range 256).filter fun n => !legalByte (BitVec.ofNat 8 n)).length = 250 := by
  have hset : ((List.range 256).filter fun n => !legalByte (BitVec.ofNat 8 n)).toFinset =
      Finset.range 256 \ {1, 2, 3, 4, 5, 10} := by
    ext n
    simp only [List.mem_toFinset, List.mem_filter, List.mem_range, Finset.mem_sdiff, Finset.mem_range]
    exact and_congr_right fun hn => by rw [← legalByte_ofNat_iff hn, Bool.not_eq_true', Bool.not_eq_true]
  have hsub : ({1, 2, 3, 4, 5, 10} : Finset Nat) ⊆ Finset.range 256 := by simp [Finset.insert_subset_iff]
  rw [← List.toFinset_card_of_nodup (List.nodup_range.filter _), hset, Finset.card_sdiff_of_subset hsub,
    Finset.card_range]
  rfl

/-! The write of an illegal byte to CMD in IDLE (R63). -/

/-- IDLE drives nothing (R33). -/
theorem drives_of_idle {s : State} (hi : s.phase = .idle) : s.drives = false := by
  simp [State.drives, hi]

/-- A CMD write of an illegal byte is rejected, whatever the phase. -/
theorem rejectsNow_of_illegal {s : State} {bus : Bus} (hp : port s = bus) (hsel : bus.sel = true) (hwe : bus.we = true)
    (haddr : bus.addr = 0#3) (hv : legalByte bus.wdata = false) : rejectsNow s = true := by
  simp [rejectsNow, acceptsNow, writesReg, hp, hsel, hwe, haddr, hv]

/-- A rejecting edge in IDLE is the synchronizer's shift and the recorded ILLEGAL, and nothing else. -/
theorem step_of_rejectsNow_idle {s : State} {bus : Bus} (hr : Ready s) (hrst : s.rstNow = false) (hi : s.phase = .idle)
    (hb : busOf s.cfg s.hostNow.access = .ok bus) (hj : rejectsNow s = true) :
    step s = .next (s.shiftSync.reject errIllegal).endCycle := by
  obtain ⟨hc, hl⟩ := hr
  obtain ⟨-, -, he⟩ := accessEffect_reject (u := s.shiftSync) hj
  rw [step_of_ordinary hc hrst hl hb (fsmEdge_idle hi), ← port_of_busOf hb, he, if_neg (not_not_intro hi), errIllegal]

/-- Settles O14: the bytes by their fields, their number, and the frame of `State.shiftSync` and `State.reject`. -/
theorem illegalByteOnlyRecordsTheError : Obligations.IllegalByteOnlyRecordsTheError := by
  refine ⟨legalByte_eq_false_iff, length_illegal_bytes, fun s bus hr hrst hi hb hsel hwe haddr hv => ?_⟩
  have hj : rejectsNow s = true := rejectsNow_of_illegal (port_of_busOf hb) hsel hwe haddr hv
  refine ⟨_, step_of_rejectsNow_idle hr hrst hi hb hj, State.reject_cmderr _ _, State.reject_errcode _ _, ?_⟩
  simp [drives_of_idle, hi]

end Sys2Proof
end

section
/-! PROOFS of the statements of 40_bus_driver.md: PRESENT (R77), OW_WRITE_BIT (R81) and OW_READ_BIT (R85). -/

namespace Sys2Proof

open Sys2Proof.Machine

/-! PRESENT (R77). -/

/-- PRESENT after any edge: the FSM's part alone moves it, no access does. -/
theorem step_present {s t : State} (h : step s = .next t) :
    t.present =
      if s.rstNow then false
      else if s.completionEdge && isResetOp s.op then s.presS
      else s.present := by
  cases hr : s.rstNow with
  | true => simp [step_with_reset h hr]
  | false =>
    obtain ⟨u, hu, -, rfl⟩ := step_without_reset h hr
    obtain ⟨-, -, -, hpresent, -⟩ := accessEffect_frame (port s) s u
    rw [State.endCycle_present, hpresent, fsmEdge_present hu]
    rfl

/-- Settles O18: `step_present`, with the operation code of OW_RESET written out. -/
theorem presentChangesOnlyAtOwResetCompletion : Obligations.PresentChangesOnlyAtOwResetCompletion :=
  fun _ _ h => step_present h

/-! OW_READ_BIT (R83 to R85). -/

/-- The level `Sample()` returns at an edge is `line_sync` in the cycle that the edge ends (R69). -/
theorem sampleAtEdge_of_runs {n : Nat} {s m : State} (h : runs (n - 1) s = .next m) :
    sampleAtEdge n s = some m.lineSync := by
  simp [sampleAtEdge, h]

/-- `zext_8(b)` (R85): one sample placed in a cleared buffer. -/
theorem placeBit_zero (b : Bool) : placeBit 0x00#8 0#3 b = if b then 0x01#8 else 0x00#8 := by
  cases b <;> decide

/-- Settles O50: acceptance clears `rxbuf` and enters the one read slot, whose sample is the only bit placed in it. -/
theorem owReadBitCommitsTheSampledBit : Obligations.OwReadBitCommitsTheSampledBit := by
  intro s hr hi hu
  obtain ⟨t, hexec, hent, hcfg, hop, hbit, hpresent, -, -, -, hrxbuf⟩ := exec_enters .owReadBit hr hi hu
  rw [← hcfg] at hent ⊢
  obtain ⟨m, c, hm, hc, hidle, hdone, hpres, hrx, -⟩ := read_bit_slot hent hop hbit
  rw [hrxbuf] at hrx
  exact ⟨t, c, m.lineSync, hexec, hc, sampleAtEdge_of_runs hm, hrx.trans (placeBit_zero _), hpres.trans hpresent, hidle,
    hdone⟩

/-! OW_WRITE_BIT (R80, R81). -/

/-- Bit 0 of `zext_8(B)` is B. -/
theorem getLsbD_bitOperand (b : BitVec 1) : (bitOperand b).getLsbD 0 = decide (b ≠ 0#1) := by
  revert b; decide

/-- The two rows of R81, cycle by cycle. -/
theorem expand_writeSlot_of_bit (c : Config) (b : BitVec 1) :
    expand (writeSlot c (decide (b ≠ 0#1))) =
      if b = 0#1 then List.replicate (c.cycles c.tSlot) true ++ List.replicate (c.cycles c.tRec) false
      else List.replicate (c.cycles c.tInit) true ++
        List.replicate (c.cycles (c.tSlot - c.tInit) + c.cycles c.tRec) false := by
  by_cases hb : b = 0#1
  · simp [expand, writeSlot, hb]
  · simp [expand, writeSlot, hb]

/-- Settles O52: acceptance latches the bit and enters the one write slot, whose waveform is the bit's row of R81. -/
theorem owWriteBitDrivesItsSlot : Obligations.OwWriteBitDrivesItsSlot := by
  intro s b hr hi hu
  obtain ⟨t, hexec, hent, hcfg, hop, hbit, hpresent, hrxdata, -, htxbuf, -⟩ := exec_enters (.owWriteBit b) hr hi hu
  rw [← hcfg] at hent ⊢
  obtain ⟨c, hc, hidle, hdone, hpres, hrx, htrace⟩ := write_bit_slot hent hop hbit
  have hsent : t.endCycle.txbuf.getLsbD 0 = decide (b ≠ 0#1) := by rw [htxbuf]; exact getLsbD_bitOperand b
  rw [hsent, expand_writeSlot_of_bit] at htrace
  exact ⟨t, c, hexec, hc, htrace, hpres.trans hpresent, hrx.trans hrxdata, hidle, hdone⟩

end Sys2Proof
end

section
/-! PROOFS of the statements of 41_byte_framer.md: RXDATA (R28, R97) and OW_WRITE_BYTE (R92 to R94). -/

namespace Sys2Proof

open Sys2Proof.Machine

/-! RXDATA (R28, R97). -/

/-- `op ∈ {RBIT, RBYTE}`, with the two operation codes of R61 written out. -/
theorem isReadOp_eq_decide (op : BitVec 3) : isReadOp op = decide (op = 3#3 ∨ op = 5#3) := by
  revert op; decide

/-- RXDATA after any edge: the FSM's part alone moves it, no access does. -/
theorem step_rxdata {s t : State} (h : step s = .next t) :
    t.rxdata =
      if s.rstNow then 0x00#8
      else if s.completionEdge && isReadOp s.op then s.rxbuf
      else s.rxdata := by
  cases hr : s.rstNow with
  | true => simp [step_with_reset h hr]
  | false =>
    obtain ⟨u, hu, -, rfl⟩ := step_without_reset h hr
    obtain ⟨-, -, -, -, hrxdata, -⟩ := accessEffect_frame (port s) s u
    rw [State.endCycle_rxdata, hrxdata, fsmEdge_rxdata hu]
    rfl

/-- Settles O19: `step_rxdata`, with the operation codes of the two read commands written out. -/
theorem rxdataChangesOnlyAtReadCompletion : Obligations.RxdataChangesOnlyAtReadCompletion := by
  intro s t h
  rw [← isReadOp_eq_decide]
  exact step_rxdata h

/-! OW_WRITE_BYTE (R92 to R94). -/

/-- A write slot of either bit lasts `N(T_SLOT + T_REC)` cycles (R81). -/
theorem length_expand_writeSlot {c : Config} (hc : c.wellFormed = true) (b : Bool) :
    (expand (writeSlot c b)).length = writeSlotCycles c := by
  rw [expand_writeSlot c b hc, writeSlotCycles_eq hc]
  simp [phaseCycles, phaseUs]

/-- Cutting a row of equally long pieces at its `k`-th boundary gives the `k`-th piece. -/
theorem take_drop_flatMap_range' {α : Type} {f : Nat → List α} {len : Nat} (hf : ∀ i, (f i).length = len) {n k : Nat}
    (hk : k < n) (a : Nat) : (((List.range' a n).flatMap f).drop (k * len)).take len = f (a + k) := by
  induction n generalizing a k with
  | zero => omega
  | succ n ih =>
    rw [List.range'_succ, List.flatMap_cons]
    cases k with
    | zero => simp [← hf a]
    | succ k =>
      have hcut : (k + 1) * len = (f a).length + k * len := by rw [hf, Nat.succ_mul, Nat.add_comm]
      rw [hcut, List.drop_length_add_append, ih (by omega)]
      congr 1; omega

/-- Settles O53: acceptance latches TXDATA and enters slot 0, from which the eight write slots of the latched byte
follow one another. -/
theorem owWriteByteSendsLsbFirst : Obligations.OwWriteByteSendsLsbFirst := by
  intro s hr hi hu
  obtain ⟨t, hexec, hent, hcfg, hop, hbit, hpresent, hrxdata, -, htxbuf, -⟩ := exec_enters .owWriteByte hr hi hu
  have htx : t.endCycle.txbuf = s.txdata := htxbuf
  rw [← hcfg] at hent ⊢
  obtain ⟨c, hc, hidle, hdone, hpres, hrx, -, -, htrace⟩ := write_byte_slots (n := 7) hent hop (by rw [hbit]; rfl)
  refine ⟨t, c, hexec, hc, fun k hk => ?_, hpres.trans hpresent, hrx.trans hrxdata, hidle, hdone⟩
  rw [htrace, hbit, htx, take_drop_flatMap_range' (fun _ => length_expand_writeSlot hent.running.config _) hk]
  simp

end Sys2Proof
end

section
/-! PROOFS of the statements of 60_exceptions.md: a rejection is precise (R110, R115). -/

namespace Sys2Proof

open Sys2Proof.Machine

/-- The end of the cycle and a rejection touch different fields, so their order does not matter. -/
theorem endCycle_reject (c : BitVec 2) (s : State) : (s.reject c).endCycle = s.endCycle.reject c := by
  unfold State.reject
  rw [State.endCycle_cmderr]
  split_ifs <;> rfl

/-- A cycle without an access adds nothing to the FSM's part of the edge. -/
theorem accessEffect_noBus (s u : State) : accessEffect noBus s u = u := rfl

/-- The edge of a cycle whose access is taken away is the FSM's part of the edge alone (R74). -/
theorem step_withAccess_noAccess {s u : State} (hrst : s.rstNow = false) (h : step (s.withAccess .noAccess) = .next u) :
    ∃ v, fsmEdge s = some v ∧ u = v.endCycle := by
  obtain ⟨w, hw, -, rfl⟩ := step_without_reset h rfl
  rw [fsmEdge_withAccess s .noAccess hrst, Option.map_eq_some_iff] at hw
  obtain ⟨v, hv, rfl⟩ := hw
  have hport : port (s.withAccess .noAccess) = noBus := rfl
  have hhost : v.host = s.host := by simp [fsmEdge_frame hv]
  exact ⟨v, hv, by rw [hport, accessEffect_noBus, ← hhost]; rfl⟩

/-- A rejecting edge is the edge of the same cycle without the access, followed by the rejection. -/
theorem step_of_rejectsNow {s t u : State} (hrst : s.rstNow = false) (hj : rejectsNow s = true) (ht : step s = .next t)
    (hu : step (s.withAccess .noAccess) = .next u) : t = u.reject (if s.phase ≠ .idle then errBusy else errIllegal) := by
  obtain ⟨v, hv, rfl⟩ := step_withAccess_noAccess hrst hu
  obtain ⟨w, hw, -, rfl⟩ := step_without_reset ht hrst
  obtain rfl : v = w := Option.some.inj (hv.symm.trans hw)
  obtain ⟨-, -, he⟩ := accessEffect_reject (u := v) hj
  rw [he, endCycle_reject, errBusy, errIllegal]

/-- Settles O12: `step_of_rejectsNow`, with `State.reject` and its codes written out. -/
theorem rejectionIsPrecise : Obligations.RejectionIsPrecise :=
  fun _ _ _ _ hrst hj ht hu => step_of_rejectsNow hrst hj ht hu

end Sys2Proof
end

section
/-! PROOFS of the statements of 70_reset_and_hazards.md: a CMD write in the last cycle of a command (R133). -/

namespace Sys2Proof

open Sys2Proof.Machine

/-- The edge that ends a command's last phase (R73). -/
theorem completionEdge_iff (s : State) :
    s.completionEdge = true ↔ s.phase ≠ .idle ∧ s.cnt = 0 ∧ nextPhase s.op s.bitidx s.phase = some .idle := by
  simp only [State.completionEdge, Bool.and_eq_true, decide_eq_true_eq, and_assoc]

/-- A completion edge enters IDLE, and no access of the same cycle can keep it from doing so. -/
theorem step_phase_of_completionEdge {s t : State} (h : step s = .next t) (hr : s.rstNow = false)
    (hc : s.completionEdge = true) : t.phase = .idle := by
  obtain ⟨hb, hcnt, hp⟩ := (completionEdge_iff s).1 hc
  obtain ⟨u, hu, -, rfl⟩ := step_without_reset h hr
  obtain rfl := Option.some.inj ((fsmEdge_exit hb hcnt hp).symm.trans hu)
  obtain ⟨hphase, -⟩ := accessEffect_busy (port s) ((s.shiftSync.exitAction s.lineSync .idle).enter .idle) hb
  rw [State.endCycle_phase, hphase, State.enter_phase]

/-- A CMD write in the cycle that ends at a completion edge finds the command still in progress. -/
theorem rejectsNow_of_completionEdge {s : State} (hc : s.completionEdge = true) (hw : writesReg s 0#3 = true) :
    rejectsNow s = true := by
  simp [rejectsNow, hw, not_acceptsNow_of_completionEdge hc]

/-- Settles O15: the command completes as if nothing were written, and the rejection records BUSY beside it. -/
theorem commandAtCompletionEdgeIsRejected : Obligations.CommandAtCompletionEdgeIsRejected := by
  intro s t hr hc hw h
  have hb : s.phase ≠ .idle := ((completionEdge_iff s).1 hc).1
  have hj : rejectsNow s = true := rejectsNow_of_completionEdge hc hw
  refine ⟨s.busy_eq_true_iff.2 hb, step_phase_of_completionEdge h hr hc, ?_, ?_, fun he => ?_⟩
  · simp [step_done h, hr, hc]
  · simp [step_cmderr h, hr, hj]
  · simp [step_errcode h, hr, hj, he, hb]

end Sys2Proof
end

section
/-! PROOFS of the statements of 10_state.md, 40_bus_driver.md and 41_byte_framer.md on single registers: TXDATA (R27),
CTRL (R29), `op` (R36), `txbuf` and `rxbuf` (R32, R70, R84) and `pres_s` (R76). -/

namespace Sys2Proof

open Sys2Proof.Machine

/-! What no edge of any kind changes, and what the environment does at each. -/

/-- Every edge keeps the configuration, moves the scripts and the cycle number on, and leaves the machine launched. -/
theorem step_environment {s t : State} (h : step s = .next t) :
    t.cfg = s.cfg ∧ t.host = s.host.tail ∧ t.line = s.line.tail ∧ t.cycle = s.cycle + 1 ∧ t.launched = true := by
  cases hr : s.rstNow with
  | true => simp [step_with_reset h hr]
  | false =>
    obtain ⟨u, hu, hl, rfl⟩ := step_without_reset h hr
    obtain ⟨hcfg, -, -, -, -, hlaunched, hhost, hline, hcycle⟩ := accessEffect_frame (port s) s u
    simp [hcfg, hlaunched, hhost, hline, hcycle, fsmEdge_frame hu, hl]

/-- Settles O6: `step_environment`. -/
theorem everyEdgeKeepsTheConfiguration : Obligations.EveryEdgeKeepsTheConfiguration :=
  fun _ _ h => step_environment h

/-! TXDATA (R27) and CTRL (R29). -/

/-- TXDATA and IRQ_EN after the access's part of the edge: each takes what the host writes to its own address. -/
theorem accessEffect_hostRegisters (s u : State) :
    (accessEffect (port s) s u).txdata = (if writesReg s 2#3 then (port s).wdata else u.txdata) ∧
    (accessEffect (port s) s u).irqEn = (if writesReg s 4#3 then (port s).wdata.getLsbD 0 else u.irqEn) := by
  have hexcl {a b : RegAddr} (hab : a ≠ b) (hw : writesReg s a = true) : writesReg s b = false :=
    writesReg_unique hw hab
  cases ha : acceptsNow s with
  | true =>
    obtain ⟨i, -, -, hw, he⟩ := accessEffect_accept (u := u) ha
    simp [he, hexcl (b := 2#3) (by decide) hw, hexcl (b := 4#3) (by decide) hw]
  | false =>
    cases hj : rejectsNow s with
    | true =>
      obtain ⟨hw, -, he⟩ := accessEffect_reject (u := u) hj
      simp [he, hexcl (b := 2#3) (by decide) hw, hexcl (b := 4#3) (by decide) hw]
    | false =>
      rw [(accessEffect_other ha hj).2]
      cases h1 : writesReg s 1#3 with
      | true => simp [hexcl (b := 2#3) (by decide) h1, hexcl (b := 4#3) (by decide) h1]
      | false =>
        cases h2 : writesReg s 2#3 with
        | true => simp [hexcl (b := 4#3) (by decide) h2]
        | false => cases writesReg s 4#3 <;> simp

/-- TXDATA after any edge. -/
theorem step_txdata {s t : State} (h : step s = .next t) :
    t.txdata = if s.rstNow then 0x00#8 else if writesReg s 2#3 then (port s).wdata else s.txdata := by
  cases hr : s.rstNow with
  | true => simp [step_with_reset h hr]
  | false =>
    obtain ⟨u, hu, -, rfl⟩ := step_without_reset h hr
    simp [(accessEffect_hostRegisters s u).1, fsmEdge_frame hu]

/-- IRQ_EN after any edge. -/
theorem step_irqEn {s t : State} (h : step s = .next t) :
    t.irqEn = if s.rstNow then false else if writesReg s 4#3 then (port s).wdata.getLsbD 0 else s.irqEn := by
  cases hr : s.rstNow with
  | true => simp [step_with_reset h hr]
  | false =>
    obtain ⟨u, hu, -, rfl⟩ := step_without_reset h hr
    simp [(accessEffect_hostRegisters s u).2, fsmEdge_frame hu]

/-- Settles O20: `step_txdata`, and the read of address 2. -/
theorem txdataIsWrittenByTheHostAlone : Obligations.TxdataIsWrittenByTheHostAlone :=
  fun _ t h => ⟨step_txdata h, t.regRead_txdata⟩

/-- Settles O21: `step_irqEn`, and the read of address 4. -/
theorem ctrlHoldsTheInterruptEnable : Obligations.CtrlHoldsTheInterruptEnable :=
  fun _ t h => ⟨step_irqEn h, t.regRead_ctrl.trans t.ctrlByte_eq⟩

/-! What an acceptance loads (R70). -/

/-- The buffers a command's acceptance loads, by its operation code (R70, R93). -/
theorem operandLoad_buffers (v : Byte) (i : Instr) (t : State) :
    (operandLoad v i t).txbuf =
      (if i.opCode = 2#3 then bitOperand i.bOperand else if i.opCode = 4#3 then v else t.txbuf) ∧
    (operandLoad v i t).rxbuf = (if isReadOp i.opCode then 0x00#8 else t.rxbuf) := by
  cases i <;> exact ⟨rfl, rfl⟩

/-- `zext_8(B)` for the B field of a byte. -/
theorem bitOperand_bField (v : Byte) : bitOperand (bField v) = if v.getLsbD 3 then 0x01#8 else 0x00#8 := by
  revert v; decide

/-- `op`, `bitidx` and the buffers after the access's part of the edge: only an acceptance touches them. -/
theorem accessEffect_loads (s u : State) :
    (accessEffect (port s) s u).op = (if acceptsNow s then opField (port s).wdata else u.op) ∧
    (accessEffect (port s) s u).bitidx = (if acceptsNow s then 0#3 else u.bitidx) ∧
    (accessEffect (port s) s u).txbuf =
      (if acceptsNow s && decide (opField (port s).wdata = 2#3) then bitOperand (bField (port s).wdata)
       else if acceptsNow s && decide (opField (port s).wdata = 4#3) then s.txdata
       else u.txbuf) ∧
    (accessEffect (port s) s u).rxbuf =
      (if acceptsNow s && isReadOp (opField (port s).wdata) then 0x00#8 else u.rxbuf) := by
  cases ha : acceptsNow s with
  | true =>
    obtain ⟨i, hd, -, -, he⟩ := accessEffect_accept (u := u) ha
    obtain ⟨hop, hb⟩ : i.opCode = opField (port s).wdata ∧ i.bOperand = bField (port s).wdata :=
      fields_of_decodeByte _ i hd
    obtain ⟨htx, hrx⟩ := operandLoad_buffers s.txdata i u
    rw [he, ← hop, ← hb]
    simp [htx, hrx]
  | false =>
    have hkeep {α : Type} (f : State → α) := accessEffect_field (u := u) ha f
    simp [hkeep State.op, hkeep State.bitidx, hkeep State.txbuf, hkeep State.rxbuf]

/-- `op` after any edge. -/
theorem step_op {s t : State} (h : step s = .next t) :
    t.op = if s.rstNow then 0#3 else if acceptsNow s then opField (port s).wdata else s.op := by
  cases hr : s.rstNow with
  | true => simp [step_with_reset h hr]
  | false =>
    obtain ⟨u, hu, -, rfl⟩ := step_without_reset h hr
    simp [(accessEffect_loads s u).1, fsmEdge_frame hu]

/-- Settles O22: `step_op`, with the OP field written out. -/
theorem opHoldsTheAcceptedCode : Obligations.OpHoldsTheAcceptedCode :=
  fun _ _ h => step_op h

/-- `txbuf` after any edge. -/
theorem step_txbuf {s t : State} (h : step s = .next t) :
    t.txbuf =
      if s.rstNow then 0x00#8
      else if acceptsNow s && decide (opField (port s).wdata = 2#3) then bitOperand (bField (port s).wdata)
      else if acceptsNow s && decide (opField (port s).wdata = 4#3) then s.txdata
      else s.txbuf := by
  cases hr : s.rstNow with
  | true => simp [step_with_reset h hr]
  | false =>
    obtain ⟨u, hu, -, rfl⟩ := step_without_reset h hr
    obtain ⟨-, -, htx, -⟩ := accessEffect_loads s u
    obtain ⟨-, -, hkeep, -⟩ := fsmEdge_frame hu
    rw [State.endCycle_txbuf, htx, hkeep]
    rfl

/-- Settles O23: `step_txbuf`, with the fields of the command byte written out. -/
theorem txbufIsLoadedAtAcceptanceOnly : Obligations.TxbufIsLoadedAtAcceptanceOnly := by
  intro s t h
  rw [← bitOperand_bField]
  exact step_txbuf h

/-! What the FSM's part of the edge samples (R76, R84). -/

/-- The buffers after the FSM's part of the edge: RST_WAIT and RWAIT each take one sample as they end. -/
theorem fsmEdge_samples {s u : State} (h : fsmEdge s = some u) :
    u.presS = (if s.phase = .rstWait ∧ s.cnt = 0 then !s.lineSync else s.presS) ∧
    u.rxbuf = (if s.phase = .rwait ∧ s.cnt = 0 then placeBit s.rxbuf s.bitidx s.lineSync else s.rxbuf) := by
  obtain ⟨hi, rfl⟩ | ⟨-, hc, rfl⟩ | ⟨-, hc, p, -, rfl⟩ := fsmEdge_cases h
  · simp [hi]
  · simp [Nat.ne_of_gt hc]
  · simp [hc]

/-- `pres_s` after any edge. -/
theorem step_presS {s t : State} (h : step s = .next t) :
    t.presS =
      if s.rstNow then false
      else if s.phase = .rstWait ∧ s.cnt = 0 then !s.lineSync
      else s.presS := by
  cases hr : s.rstNow with
  | true => simp [step_with_reset h hr]
  | false =>
    obtain ⟨u, hu, -, rfl⟩ := step_without_reset h hr
    obtain ⟨-, hkeep, -⟩ := accessEffect_frame (port s) s u
    rw [State.endCycle_presS, hkeep, (fsmEdge_samples hu).1]
    rfl

/-- Settles O25: `step_presS`. -/
theorem presenceIsSampledOnce : Obligations.PresenceIsSampledOnce :=
  fun _ _ h => by simp only [step_presS h, Bool.and_eq_true, decide_eq_true_eq]

/-- `rxbuf` after an edge with `rst = 0`; an acceptance is in IDLE, so the two ways it changes exclude each other. -/
theorem step_rxbuf {s t : State} (h : step s = .next t) (hr : s.rstNow = false) :
    t.rxbuf =
      if acceptsNow s && isReadOp (opField (port s).wdata) then 0x00#8
      else if s.phase = .rwait ∧ s.cnt = 0 then placeBit s.rxbuf s.bitidx s.lineSync
      else s.rxbuf := by
  obtain ⟨u, hu, -, rfl⟩ := step_without_reset h hr
  obtain ⟨-, -, -, hrx⟩ := accessEffect_loads s u
  rw [State.endCycle_rxbuf, hrx, (fsmEdge_samples hu).2]

/-- Acceptance needs IDLE (R70). -/
theorem idle_of_acceptsNow {s : State} (ha : acceptsNow s = true) : s.phase = .idle := by
  simp only [acceptsNow, Bool.and_eq_true, decide_eq_true_eq] at ha
  exact ha.1.1

/-- A command in progress accepts nothing. -/
theorem acceptsNow_of_busy {s : State} (hb : s.phase ≠ .idle) : acceptsNow s = false :=
  Bool.eq_false_iff.2 fun ha => hb (idle_of_acceptsNow ha)

/-- Settles O24: `step_rxbuf` at an acceptance, at the end of RWAIT, and at every other edge. -/
theorem rxbufTakesOneBitPerSlot : Obligations.RxbufTakesOneBitPerSlot := by
  intro s t h hr
  have hrx := step_rxbuf h hr
  refine ⟨fun ha => ?_, fun hp hc k hk => ?_, fun ha hn => ?_⟩
  · simpa [ha, idle_of_acceptsNow ha, isReadOp_eq_decide, opField] using hrx
  · rw [hrx, acceptsNow_of_busy (by simp [hp])]
    simpa [hp, hc] using getLsbD_placeBit s.rxbuf s.bitidx s.lineSync k hk
  · simpa [ha, hn] using hrx

end Sys2Proof
end

section
/-! PROOFS of the statements of 30_encoding.md on decoding (R60 to R62), and of a CMD write that a step decodes
(20_memory.md R47, 40_bus_driver.md R74). -/

namespace Sys2Proof.Machine

/-- The move placed in the coming cycle is the one the host makes in it. -/
@[simp] theorem State.withAccess_hostNow (s : State) (a : HostAccess) :
    (s.withAccess a).hostNow = { rst := false, access := a } := rfl

end Sys2Proof.Machine

namespace Sys2Proof

open Sys2Proof.Machine

/-! Decoding and encoding. -/

/-- Every command's byte decodes to it. -/
theorem decodeByte_encode (i : Instr) : decodeByte (encode i) = .ok i := by
  cases i with
  | owReset => exact decodeByte_owReset
  | owWriteBit b => revert b; decide
  | owReadBit => exact decodeByte_owReadBit
  | owWriteByte => exact decodeByte_owWriteByte
  | owReadByte => exact decodeByte_owReadByte

/-- Settles O3: `decodeByte_encode`, and a byte is put together from its fields. -/
theorem decodeInvertsEncode : Obligations.DecodeInvertsEncode :=
  fun i => ⟨decodeByte_encode i, fun _ h => eq_encode_of_decodeByte h⟩

/-- `legal(v)` of R62 as a proposition on the fields. -/
theorem legalByte_fields (v : Byte) :
    legalByte v = true ↔
      v.extractLsb' 4 4 = 0#4 ∧
        (v.extractLsb' 0 3 = 2#3 ∨
          (v.getLsbD 3 = false ∧ (v.extractLsb' 0 3 = 1#3 ∨ v.extractLsb' 0 3 = 3#3 ∨
            v.extractLsb' 0 3 = 4#3 ∨ v.extractLsb' 0 3 = 5#3))) := by
  simp only [legalByte, Bool.and_eq_true, Bool.or_eq_true, beq_iff_eq, List.contains_iff_mem, List.mem_cons,
    List.not_mem_nil, or_false]

/-- Settles O2: the legal bytes are those that decode, and a decoded byte has its command's fields. -/
theorem decodeFollowsLegalBytes : Obligations.DecodeFollowsLegalBytes :=
  fun v => ⟨by rw [← legalByte_fields, legalByte_iff], fields_of_decodeByte v⟩

/-! The host's address of a register (R47). -/

/-- The byte at `BASE + a` is in the block's window, and its register address is `a`. -/
theorem inWindow_register (c : Config) (a : RegAddr) :
    inWindow c (c.base + a.toNat) = true ∧ BitVec.ofNat 3 (c.base + a.toNat - c.base) = a := by
  have ha : a.toNat < 8 := a.isLt
  refine ⟨by simp [inWindow, ha], ?_⟩
  rw [Nat.add_sub_cancel_left, BitVec.ofNat_toNat, BitVec.setWidth_eq]

/-- The port signals of a write at `BASE + a`. -/
theorem busOf_memWrite (c : Config) (a : RegAddr) (v : Byte) :
    busOf c (.memWrite (c.base + a.toNat) v) = .ok { sel := true, we := true, addr := a, wdata := v } := by
  obtain ⟨hw, ha⟩ := inWindow_register c a
  simp only [busOf, hw, if_true, ha]

/-- The port signals of a read at `BASE + a`. -/
theorem busOf_memRead (c : Config) (a : RegAddr) :
    busOf c (.memRead (c.base + a.toNat)) = .ok { sel := true, we := false, addr := a, wdata := 0x00#8 } := by
  obtain ⟨hw, ha⟩ := inWindow_register c a
  simp only [busOf, hw, if_true, ha]

/-- Settles O33: `busOf_memRead` and `busOf_memWrite`. -/
theorem registersStandAtBasePlusAddress : Obligations.RegistersStandAtBasePlusAddress :=
  fun c a v => ⟨⟨_, busOf_memRead c a, rfl, rfl, rfl⟩, busOf_memWrite c a v⟩

/-! A CMD write (R74). -/

/-- A step with `rst = 0` and an access the port takes is the edge of its port signals. -/
theorem step_of_busOf {s : State} {bus : Bus} (hr : Ready s) (hrst : s.rstNow = false)
    (hb : busOf s.cfg s.hostNow.access = .ok bus) : step s = thenEndCycle (busEdge bus s) := by
  obtain ⟨hc, hl⟩ := hr
  simp [step, hc, hl, hrst, hb]

/-- The edge of a CMD write of a byte that decodes is the command's meaning. -/
theorem busEdge_of_command {bus : Bus} {i : Instr} (s : State) (hsel : bus.sel = true) (hwe : bus.we = true)
    (haddr : bus.addr = 0#3) (hd : decodeByte bus.wdata = .ok i) : busEdge bus s = exec i s := by
  have hw : bus.writesCmd = true := by simp [Bus.writesCmd, hsel, hwe, haddr]
  simp only [busEdge, hw, if_true, hd]

/-- Settles O4: `step_of_busOf` and `busEdge_of_command`. -/
theorem stepRunsTheDecodedCommand : Obligations.StepRunsTheDecodedCommand := by
  intro s bus i hr hrst hb hsel hwe haddr hd
  have hstep : step s = thenEndCycle (exec i s) := by
    rw [step_of_busOf hr hrst hb, busEdge_of_command s hsel hwe haddr hd]
  exact ⟨hstep, fun t ht => by rw [hstep, ht]; rfl⟩

/-- A word of the table decodes as the byte it is. -/
theorem decodeByte_of_tableWord {w : Nat} {i : Instr} (h : decodeTableWord 8 w = some i) :
    decodeByte (BitVec.ofNat 8 w) = .ok i := by
  unfold decodeTableWord at h
  split_ifs at h
  cases hd : decodeByte (BitVec.ofNat 8 w) with
  | ok j => rw [hd] at h; exact congrArg _ (Option.some.inj h)
  | error e => simp [hd, Except.toOption] at h

/-- Settles O5: the word stands on the port as a write to `BASE + 0`, which is CMD. -/
theorem fetchWordIsRunNext : Obligations.FetchWordIsRunNext := by
  intro s w i hr hw
  have hready : Ready (s.withFetchWord 8 w) := hr
  have hb : busOf (s.withFetchWord 8 w).cfg (s.withFetchWord 8 w).hostNow.access =
      .ok { sel := true, we := true, addr := 0#3, wdata := BitVec.ofNat 8 w } := by
    simpa [State.withFetchWord] using busOf_memWrite s.cfg 0#3 (BitVec.ofNat 8 w)
  have hedge := busEdge_of_command (bus := { sel := true, we := true, addr := 0#3, wdata := BitVec.ofNat 8 w })
    (s.withFetchWord 8 w) rfl rfl rfl (decodeByte_of_tableWord hw)
  rw [step_of_busOf hready rfl hb, hedge]

end Sys2Proof
end

section
/-! PROOFS of the statements of 40_bus_driver.md and 41_byte_framer.md on the edge of a CMD write: acceptance in IDLE
(R70), and rejection while a command is in progress (60_exceptions.md R110). -/

namespace Sys2Proof

open Sys2Proof.Machine

/-- The accepting edge of every command. -/
theorem exec_of_idle {s : State} (i : Instr) (hi : s.phase = .idle) :
    exec i s = .next ((operandLoad s.txdata i s.shiftSync).accept i.opCode (firstPhase i)) := by
  rw [exec_eq, onEdge_of_fsmEdge _ (fsmEdge_idle hi), commandEffect, if_pos hi]

/-- Settles O7: `exec_of_idle`; OW_RESET has no operand. -/
theorem owResetIsAccepted : Obligations.OwResetIsAccepted :=
  fun _ hi => exec_of_idle .owReset hi

/-- `zext_8(B)`, by the value of the bit. -/
theorem bitOperand_eq (b : BitVec 1) : bitOperand b = if b = 1#1 then 0x01#8 else 0x00#8 := by
  revert b; decide

/-- Settles O8: `exec_of_idle`; the operand is the bit, zero-extended. -/
theorem owWriteBitIsAccepted : Obligations.OwWriteBitIsAccepted := by
  intro s b hi
  rw [← bitOperand_eq]
  exact exec_of_idle (.owWriteBit b) hi

/-- Settles O9: `exec_of_idle`; a read command clears `rxbuf`. -/
theorem owReadBitIsAccepted : Obligations.OwReadBitIsAccepted :=
  fun _ hi => exec_of_idle .owReadBit hi

/-- Settles O10: `exec_of_idle`; the operand is TXDATA. -/
theorem owWriteByteIsAccepted : Obligations.OwWriteByteIsAccepted :=
  fun _ hi => exec_of_idle .owWriteByte hi

/-- Settles O11: `exec_of_idle`; a read command clears `rxbuf`. -/
theorem owReadByteIsAccepted : Obligations.OwReadByteIsAccepted :=
  fun _ hi => exec_of_idle .owReadByte hi

/-- Settles O13: a command in progress goes on as in a cycle without an access, and `State.reject` records BUSY. -/
theorem busyControllerRejectsEveryCommand : Obligations.BusyControllerRejectsEveryCommand := by
  intro i s u hb hq
  obtain ⟨v, hv, rfl⟩ := onEdge_next.1 hq
  rw [exec_eq, onEdge_of_fsmEdge _ hv, commandEffect, if_neg hb]
  rfl

end Sys2Proof
end

section
/-! PROOFS of the statements of 40_bus_driver.md on the course of a command: its counter (R71), the transition table
(R72), and IDLE (R70, R74). -/

namespace Sys2Proof

open Sys2Proof.Machine

/-- While a command is in progress an edge with `rst = 0` makes of its machinery what the FSM's part alone makes of
it. -/
theorem step_of_busy {s t : State} (h : step s = .next t) (hr : s.rstNow = false) (hb : s.phase ≠ .idle) :
    ∃ u, fsmEdge s = some u ∧ t.phase = u.phase ∧ t.cnt = u.cnt ∧ t.bitidx = u.bitidx := by
  obtain ⟨u, hu, -, rfl⟩ := step_without_reset h hr
  obtain ⟨hphase, hcnt, -, -, -, hbit, -⟩ := accessEffect_busy (port s) u hb
  exact ⟨u, hu, by simpa using hphase, by simpa using hcnt, by simpa using hbit⟩

/-- An edge within a phase (R71). -/
theorem step_within_phase {s t : State} (h : step s = .next t) (hr : s.rstNow = false) (hb : s.phase ≠ .idle)
    (hc : 0 < s.cnt) : t.phase = s.phase ∧ t.cnt = s.cnt - 1 ∧ t.bitidx = s.bitidx := by
  obtain ⟨u, hu, hphase, hcnt, hbit⟩ := step_of_busy h hr hb
  obtain rfl := Option.some.inj ((fsmEdge_count hb hc).symm.trans hu)
  exact ⟨hphase, hcnt, hbit⟩

/-- The edge that ends a phase: the next phase, its counter, and the slot index (R71, R72). -/
theorem step_ends_phase {s t : State} (h : step s = .next t) (hr : s.rstNow = false) (hb : s.phase ≠ .idle)
    (hc : s.cnt = 0) :
    ∃ p, nextPhase s.op s.bitidx s.phase = some p ∧ t.phase = p ∧ t.cnt = phaseCycles s.cfg p - 1 ∧
      t.bitidx = if s.phase = .recov ∧ p = .init then s.bitidx + 1#3 else s.bitidx := by
  obtain ⟨u, hu, hphase, hcnt, hbit⟩ := step_of_busy h hr hb
  obtain ⟨hi, -⟩ | ⟨-, hpos, -⟩ | ⟨-, -, p, hp, rfl⟩ := fsmEdge_cases hu
  · exact absurd hi hb
  · omega
  · exact ⟨p, hp, by simpa using hphase, by simpa using hcnt, by simpa using hbit⟩

/-- Settles O27: `step_within_phase`. -/
theorem phaseCountsDown : Obligations.PhaseCountsDown :=
  fun _ _ h hr hb hc => step_within_phase h hr hb hc

/-! The transition table (R72). -/

/-- `step_ends_phase` where the next phase is known. -/
theorem step_enters {s t : State} {p : Phase} (h : step s = .next t) (hr : s.rstNow = false) (hb : s.phase ≠ .idle)
    (hc : s.cnt = 0) (hp : nextPhase s.op s.bitidx s.phase = some p) :
    t.phase = p ∧ t.cnt = phaseCycles s.cfg p - 1 ∧
      t.bitidx = if s.phase = .recov ∧ p = .init then s.bitidx + 1#3 else s.bitidx := by
  obtain ⟨q, hq, hphase, hcnt, hbit⟩ := step_ends_phase h hr hb hc
  obtain rfl := Option.some.inj (hp.symm.trans hq)
  exact ⟨hphase, hcnt, hbit⟩

/-- `step_enters` within a slot, or within OW_RESET: the slot index is kept. -/
theorem step_enters_within_slot {s t : State} {p : Phase} (h : step s = .next t) (hr : s.rstNow = false)
    (hb : s.phase ≠ .idle) (hc : s.cnt = 0) (hq : s.phase ≠ .recov) (hp : nextPhase s.op s.bitidx s.phase = some p) :
    t.phase = p ∧ t.cnt = phaseCycles s.cfg p - 1 ∧ t.bitidx = s.bitidx := by
  simpa [hq] using step_enters h hr hb hc hp

/-- The edge that ends a command. -/
theorem step_completes {s t : State} (h : step s = .next t) (hr : s.rstNow = false) (hb : s.phase ≠ .idle)
    (hc : s.cnt = 0) (hp : nextPhase s.op s.bitidx s.phase = some .idle) :
    t.phase = .idle ∧ t.cnt = 0 ∧ t.done = true ∧ t.bitidx = s.bitidx := by
  obtain ⟨hphase, hcnt, hbit⟩ := step_enters h hr hb hc hp
  refine ⟨hphase, by simpa [phaseCycles, phaseUs, Config.cycles] using hcnt, ?_, by simpa using hbit⟩
  simp [step_done h, hr, (completionEdge_iff s).2 ⟨hb, hc, hp⟩]

/-- `op ∈ {WBYTE, RBYTE}`, with the operation codes of R61 written out. -/
theorem isByteOp_iff (op : BitVec 3) : isByteOp op = true ↔ op = 4#3 ∨ op = 5#3 := by
  simp [isByteOp]

/-- REC goes back to INIT in the first seven slots of a byte command, and ends the command otherwise. -/
theorem nextPhase_recov (op i : BitVec 3) :
    nextPhase op i .recov = some (if (op = 4#3 ∨ op = 5#3) ∧ i.toNat < 7 then .init else .idle) := by
  simp only [nextPhase, Bool.and_eq_true, decide_eq_true_eq, isByteOp_iff]
  split_ifs <;> rfl

/-- The slot index goes up by 1 as a byte command goes on. -/
theorem toNat_bitidx_succ {i : BitVec 3} (hi : i.toNat < 7) : (i + 1#3).toNat = i.toNat + 1 := by
  rw [BitVec.toNat_add, BitVec.toNat_ofNat]
  omega

/-- Settles O28: the row of R72 for the phase that ends, and what the exit action samples or commits. -/
theorem phaseEndsAsTheTransitionTableSays : Obligations.PhaseEndsAsTheTransitionTableSays := by
  intro s t h hr hb hc
  have hwithin {p : Phase} := step_enters_within_slot (p := p) h hr hb hc
  have hcompletes := step_completes h hr hb hc
  cases hp : s.phase with
  | idle => exact absurd hp hb
  | rstLow => exact hwithin (by simp [hp]) (by rw [hp]; rfl)
  | rstWait =>
    obtain ⟨hphase, hcnt, hbit⟩ := hwithin (p := .rstRem) (by simp [hp]) (by rw [hp]; rfl)
    exact ⟨hphase, hcnt, by simp [step_presS h, hr, hp, hc], hbit⟩
  | rstRem => exact hcompletes (by rw [hp]; rfl)
  | init =>
    refine ⟨fun hop => ?_, fun hop => ?_⟩
    · exact hwithin (p := .wbody) (by simp [hp]) (by rcases hop with hop | hop <;> rw [hp, hop] <;> rfl)
    · exact hwithin (p := .rwait) (by simp [hp]) (by rcases hop with hop | hop <;> rw [hp, hop] <;> rfl)
  | wbody => exact hwithin (by simp [hp]) (by rw [hp]; rfl)
  | rwait =>
    obtain ⟨hphase, hcnt, hbit⟩ := hwithin (p := .rpad) (by simp [hp]) (by rw [hp]; rfl)
    refine ⟨hphase, hcnt, ?_, hbit⟩
    have hlt : s.bitidx.toNat < 8 := s.bitidx.isLt
    simp [step_rxbuf h hr, acceptsNow_of_busy hb, hp, hc, getLsbD_placeBit _ _ _ _ hlt]
  | rpad => exact hwithin (by simp [hp]) (by rw [hp]; rfl)
  | recov =>
    have hnext := nextPhase_recov s.op s.bitidx
    dsimp only
    split_ifs with hmore
    · rw [if_pos hmore, ← hp] at hnext
      obtain ⟨hphase, hcnt, hbit⟩ := step_enters h hr hb hc hnext
      refine ⟨hphase, hcnt, ?_, ?_⟩
      · rw [hbit, if_pos ⟨hp, rfl⟩, toNat_bitidx_succ hmore.2]
      · have hce : s.completionEdge = false := by simp [State.completionEdge, hnext]
        rw [step_done h]
        simp only [hr, hce, acceptsNow_of_busy hb, Bool.false_eq_true, if_false]
        cases writesReg s 1#3 && (port s).wdata.getLsbD 1 <;> simp
    · rw [if_neg hmore, ← hp] at hnext
      exact hcompletes hnext

/-! IDLE (R72, R74). -/

/-- The first phase of a command is not IDLE. -/
theorem firstPhase_ne_idle (i : Instr) : firstPhase i ≠ .idle := by
  cases i <;> simp [firstPhase]

/-- An edge in IDLE that accepts nothing stays there, and keeps the counter. -/
theorem step_stays_idle {s t : State} (h : step s = .next t) (hr : s.rstNow = false) (hi : s.phase = .idle)
    (ha : acceptsNow s = false) : t.phase = .idle ∧ t.cnt = s.cnt := by
  obtain ⟨u, hu, -, rfl⟩ := step_without_reset h hr
  obtain rfl := Option.some.inj ((fsmEdge_idle hi).symm.trans hu)
  have hkeep {α : Type} (f : State → α) := accessEffect_field (u := s.shiftSync) ha f
  simp [hkeep State.phase, hkeep State.cnt, hi]

/-- An accepting edge begins a command. -/
theorem step_accepts {s t : State} (h : step s = .next t) (hr : s.rstNow = false) (ha : acceptsNow s = true) :
    t.phase ≠ .idle := by
  obtain ⟨u, -, -, rfl⟩ := step_without_reset h hr
  obtain ⟨i, -, -, -, he⟩ := accessEffect_accept (u := u) ha
  simpa [he] using firstPhase_ne_idle i

/-- Settles O29: in IDLE an edge with `rst = 0` accepts or stays, and a command in progress accepts nothing. -/
theorem idleIsLeftOnlyByAcceptance : Obligations.IdleIsLeftOnlyByAcceptance := by
  intro s t h
  cases hr : s.rstNow with
  | true => simp [step_with_reset h hr]
  | false =>
    refine ⟨fun hi => ⟨fun ht => ⟨rfl, ?_⟩, fun ⟨_, ha⟩ => step_accepts h hr ha⟩, fun hi ht hc => ?_, fun hb _ => ?_⟩
    · exact Bool.of_not_eq_false fun ha => ht (step_stays_idle h hr hi ha).1
    · have ha : acceptsNow s = false := Bool.eq_false_iff.2 fun ha => step_accepts h hr ha ht
      rw [(step_stays_idle h hr hi ha).2, hc]
    · simp [step_op h, step_txbuf h, hr, acceptsNow_of_busy hb]

end Sys2Proof
end

section
/-! PROOFS of the statements on the invariant of every run: it holds at reset, the two parts of an edge keep it, and
from it follow progress (40_bus_driver.md R89) and the bounds of the counters (R141). -/

namespace Sys2Proof

open Sys2Proof.Machine

/-! Reset. -/

/-- The reset values have the invariant in every legal configuration (10_state.md R40). -/
theorem inv_resetWith {c : Config} (hc : c.wellFormed = true) : Inv (State.resetWith c) where
  config := hc
  stages := List.length_replicate
  counter := Nat.zero_le _
  operation := by simp [State.resetWith, phaseAdmitsOp]
  slot := fun hb => absurd rfl hb
  error := by simp [State.resetWith, errNone]
  errorCode := by simp [State.resetWith]
  doneLow := fun hb => absurd rfl hb
  unsampled := fun hb => absurd rfl hb
  bitSent := fun hb => absurd rfl hb

/-- The default configuration at one cycle in a microsecond is legal. -/
theorem wellFormed_standard_one : (Config.standard 1 0).wellFormed = true := by decide

/-- Settles O43: `inv_resetWith`, in the configuration of `State.reset` too. -/
theorem invariantHoldsAtReset : Obligations.InvariantHoldsAtReset :=
  ⟨fun _ hc => inv_resetWith hc, inv_resetWith wellFormed_standard_one⟩

/-- The invariant does not speak of the environment, of the results or of the registers the host writes. -/
theorem Inv.congr {s t : State} (h : Inv s) (hcfg : t.cfg = s.cfg) (hphase : t.phase = s.phase) (hcnt : t.cnt = s.cnt)
    (hop : t.op = s.op) (htx : t.txbuf = s.txbuf) (hrx : t.rxbuf = s.rxbuf) (hbit : t.bitidx = s.bitidx)
    (hsync : t.sync.length = s.sync.length) (hdone : s.done = false → t.done = false)
    (herror : t.errcode ≠ errNone ↔ t.cmderr = true) (hcode : t.errcode ≠ 3#2) : Inv t where
  config := by rw [hcfg]; exact h.config
  stages := by rw [hsync, hcfg]; exact h.stages
  counter := by rw [hcnt, hcfg, hphase]; exact h.counter
  operation := by rw [hphase, hop]; exact h.operation
  slot := by rw [hphase, hop, hbit]; exact h.slot
  error := herror
  errorCode := hcode
  doneLow := fun hb => hdone (h.doneLow (by rwa [← hphase]))
  unsampled := by
    have hfirst : firstUnsampled t = firstUnsampled s := by simp [firstUnsampled, hphase, hbit]
    rw [hphase, hop, hfirst, hrx]
    exact h.unsampled
  bitSent := by rw [hphase, hop, htx]; exact h.bitSent

/-- The end of the cycle keeps the invariant. -/
theorem Inv.endCycle {s : State} (h : Inv s) : Inv s.endCycle :=
  h.congr rfl rfl rfl rfl rfl rfl rfl rfl id h.error h.errorCode

/-- An edge with `rst = 1` gives the invariant. -/
theorem inv_resetEdge {s : State} (hc : s.cfg.wellFormed = true) : Inv s.resetEdge :=
  (inv_resetWith hc).congr rfl rfl rfl rfl rfl rfl rfl rfl id (inv_resetWith hc).error (inv_resetWith hc).errorCode

/-! The FSM's part of the edge. -/

/-- The FSM's part of an edge keeps the depth of the synchronizer. -/
theorem length_shiftSync (s : State) : s.shiftSync.sync.length = s.sync.length := by
  simp

/-- In a read command, the sample at the end of RWAIT moves the first unsampled position up by one, and no other phase's
end moves it (41_byte_framer.md R96). -/
theorem firstUnsampled_exit {s : State} {p : Phase} (b : Bool) (hp : nextPhase s.op s.bitidx s.phase = some p)
    (hidle : p ≠ .idle) (hread : isReadOp s.op = true) (hadmits : phaseAdmitsOp s.phase s.op = true) :
    firstUnsampled ((s.shiftSync.exitAction b p).enter p) =
      if s.phase = .rwait then firstUnsampled s + 1 else firstUnsampled s := by
  have hwrite : isWriteOp s.op = false := by
    clear hp hadmits; revert hread; generalize s.op = op; revert op; decide
  cases hq : s.phase with
  | recov =>
    rw [hq, nextPhase_recov] at hp
    split_ifs at hp with hmore
    · obtain rfl := Option.some.inj hp
      simp only [firstUnsampled, State.enter_phase, State.enter_bitidx, State.shiftSync_exitAction_bitidx, hq, and_self,
        if_true, toNat_bitidx_succ hmore.2, reduceCtorEq, if_false]
    · exact absurd (Option.some.inj hp).symm hidle
  | wbody => simp [hq, phaseAdmitsOp, hwrite] at hadmits
  | idle => simp [hq, nextPhase] at hp
  | _ =>
    simp only [hq, nextPhase, hwrite, hread, Bool.false_eq_true, if_false, if_true, Option.some.injEq] at hp
    subst hp
    simp [firstUnsampled, hq]

/-- The samples of a read command lie below the first unsampled position after the FSM ends a phase too. -/
theorem unsampled_exit {s : State} {p : Phase} (h : Inv s) (b : Bool) (hb : s.phase ≠ .idle)
    (hp : nextPhase s.op s.bitidx s.phase = some p) (hidle : p ≠ .idle) (hread : isReadOp s.op = true) {k : Nat}
    (hk : firstUnsampled ((s.shiftSync.exitAction b p).enter p) ≤ k) :
    ((s.shiftSync.exitAction b p).enter p).rxbuf.getLsbD k = false := by
  rw [firstUnsampled_exit b hp hidle hread h.operation] at hk
  rw [State.enter_rxbuf, State.shiftSync_exitAction_rxbuf]
  split_ifs at hk ⊢ with hq
  · have hfirst : firstUnsampled s = s.bitidx.toNat := by simp [firstUnsampled, hq]
    by_cases hlt : k < 8
    · rw [getLsbD_placeBit _ _ _ _ hlt, if_neg (by omega)]
      exact h.unsampled hb hread k (by omega)
    · exact BitVec.getLsbD_of_ge _ _ (by omega)
  · exact h.unsampled hb hread k hk

/-- The end of a phase keeps the invariant (R72). -/
theorem inv_exit {s : State} {p : Phase} (h : Inv s) (b : Bool) (hb : s.phase ≠ .idle)
    (hp : nextPhase s.op s.bitidx s.phase = some p) : Inv ((s.shiftSync.exitAction b p).enter p) where
  config := by simpa using h.config
  stages := by simpa using h.stages
  counter := by simp
  operation := by
    obtain ⟨q, hq, hadmits, -⟩ := laterCycles_next (i := s.bitidx) h.config h.operation hb
    obtain rfl := Option.some.inj (hp.symm.trans hq)
    simpa using hadmits
  slot := by
    intro hidle hbyte
    have hrepeat : ¬(s.phase = .recov ∧ p = .init) := by
      rintro ⟨hq, rfl⟩
      have hbit : isByteOp s.op = false := by simpa using hbyte
      simp [hq, nextPhase, hbit] at hp
    simpa [hrepeat] using h.slot hb (by simpa using hbyte)
  error := by simpa using h.error
  errorCode := by simpa using h.errorCode
  doneLow := by
    intro hidle
    have hgoes : p ≠ .idle := by simpa using hidle
    simp [completes_of_nextPhase hp, hgoes, h.doneLow hb]
  unsampled := fun hidle hread k hk =>
    unsampled_exit h b hb hp (by simpa using hidle) (by simpa using hread) hk
  bitSent := fun _ hop => by simpa using h.bitSent hb (by simpa using hop)

/-- The FSM's part of an edge keeps the invariant. -/
theorem fsmEdge_inv {s u : State} (h : Inv s) (hu : fsmEdge s = some u) : Inv u := by
  obtain ⟨-, rfl⟩ | ⟨hb, -, rfl⟩ | ⟨hb, -, p, hp, rfl⟩ := fsmEdge_cases hu
  · exact h.congr rfl rfl rfl rfl rfl rfl rfl (length_shiftSync s) id h.error h.errorCode
  · have hlower : Inv { s with cnt := s.cnt - 1 } :=
      { h with counter := (Nat.sub_le _ _).trans h.counter }
    exact hlower.congr rfl rfl rfl rfl rfl rfl rfl (length_shiftSync s) id h.error h.errorCode
  · exact inv_exit h s.lineSync hb hp

/-! The access's part of the edge. -/

/-- An acceptance gives the invariant of a command in its first phase (R70). -/
theorem inv_accept {u : State} (h : Inv u) (v : Byte) (i : Instr) :
    Inv ((operandLoad v i u).accept i.opCode (firstPhase i)) where
  config := by simpa using h.config
  stages := by simpa using h.stages
  counter := by simp
  operation := by cases i <;> rfl
  slot := fun _ _ => rfl
  error := by simpa using h.error
  errorCode := by simpa using h.errorCode
  doneLow := fun _ => rfl
  unsampled := by
    intro _ hread k _
    have hclear : (operandLoad v i u).rxbuf = 0x00#8 := by
      rw [(operandLoad_buffers v i u).2]
      exact if_pos hread
    simp [hclear]
  bitSent := by
    intro _ hop
    have hload : (operandLoad v i u).txbuf = bitOperand i.bOperand := by
      rw [(operandLoad_buffers v i u).1]
      exact if_pos hop
    have hbound : ∀ b : BitVec 1, (bitOperand b).toNat ≤ 1 := by decide
    rw [State.accept_txbuf, hload]
    exact hbound _

/-- A rejection keeps the invariant, if its code is a code of R25. -/
theorem inv_reject {u : State} (h : Inv u) {c : BitVec 2} (hsome : c ≠ errNone) (hlegal : c ≠ 3#2) :
    Inv (u.reject c) := by
  have herror : (u.reject c).errcode ≠ errNone ↔ (u.reject c).cmderr = true := by
    rw [State.reject_errcode, State.reject_cmderr]
    split_ifs with hs
    · simp [h.error.2 hs]
    · simp [hsome]
  have hcode : (u.reject c).errcode ≠ 3#2 := by
    rw [State.reject_errcode]
    split_ifs
    · exact h.errorCode
    · exact hlegal
  refine h.congr ?_ ?_ ?_ ?_ ?_ ?_ ?_ ?_ ?_ herror hcode <;> simp

/-- An acknowledgement keeps the invariant: it clears DONE, or CMDERR together with ERRCODE. -/
theorem inv_acknowledge {u : State} (h : Inv u) (b : Bool) (v : Byte) : Inv (u.acknowledge b v) := by
  have herror : (u.acknowledge b v).errcode ≠ errNone ↔ (u.acknowledge b v).cmderr = true := by
    rw [State.acknowledge_errcode, State.acknowledge_cmderr]
    split_ifs
    · simp
    · exact h.error
  have hcode : (u.acknowledge b v).errcode ≠ 3#2 := by
    rw [State.acknowledge_errcode]
    split_ifs
    · decide
    · exact h.errorCode
  refine h.congr ?_ ?_ ?_ ?_ ?_ ?_ ?_ ?_ (fun hd => ?_) herror hcode <;> simp
  exact fun _ => hd

/-- Every access keeps the invariant. -/
theorem accessEffect_inv {u : State} (h : Inv u) (bus : Bus) (s : State) : Inv (accessEffect bus s u) := by
  obtain ⟨-, i, -, -, he⟩ | ⟨c, -, hc, he⟩ | he | he | he | he := accessEffect_cases bus s u
  · exact he ▸ inv_accept h s.txdata i
  · obtain ⟨hsome, hlegal⟩ : c ≠ errNone ∧ c ≠ 3#2 := by rcases hc with rfl | rfl <;> decide
    exact he ▸ inv_reject h hsome hlegal
  · exact he ▸ inv_acknowledge h s.completionEdge bus.wdata
  · exact he ▸ h.congr rfl rfl rfl rfl rfl rfl rfl rfl id h.error h.errorCode
  · exact he ▸ h.congr rfl rfl rfl rfl rfl rfl rfl rfl id h.error h.errorCode
  · rwa [he]

/-! The whole edge. -/

/-- Every step keeps the invariant: the FSM's part, the access's part and the end of the cycle each do. -/
theorem step_inv {s t : State} (h : Inv s) (hs : step s = .next t) : Inv t := by
  obtain ⟨hc, ⟨-, rfl⟩ | ⟨-, -, bus, u, -, hu, rfl⟩⟩ := step_cases hs
  · exact (inv_resetEdge hc).endCycle
  · exact (accessEffect_inv (fsmEdge_inv h hu) bus s).endCycle

/-- Settles O44: `step_inv`. -/
theorem everyStepKeepsTheInvariant : Obligations.EveryStepKeepsTheInvariant :=
  fun _ _ h hs => step_inv h hs

/-! Progress (R89). -/

/-- With the invariant the FSM's part of the edge never stops. -/
theorem fsmEdge_of_inv {s : State} (h : Inv s) : ∃ u, fsmEdge s = some u := by
  by_cases hi : s.phase = .idle
  · exact ⟨_, fsmEdge_idle hi⟩
  · obtain ⟨u, hu, -⟩ := fsmEdge_remaining h.config h.operation hi
    exact ⟨u, hu⟩

/-- Settles O45: the FSM goes on, and the port refuses a wide access alone. -/
theorem controllerNeverHangs : Obligations.ControllerNeverHangs := by
  intro s h hl
  cases hr : s.rstNow with
  | true => exact .inl ⟨_, step_of_reset h.config hr⟩
  | false =>
    obtain ⟨u, hu⟩ := fsmEdge_of_inv h
    cases hb : busOf s.cfg s.hostNow.access with
    | ok bus => exact .inl ⟨_, step_of_ordinary h.config hr hl hb hu⟩
    | error r =>
      obtain ⟨rfl, -⟩ := busOf_error hb
      exact .inr (by simp [step, h.config, hr, hl, hb])

/-! The counters (R141). -/

/-- No phase is longer than the counter can count (00_scope.md R8). -/
theorem phaseCycles_le {c : Config} (hc : c.wellFormed = true) (p : Phase) : phaseCycles c p ≤ 2 ^ c.cntW := by
  obtain ⟨-, -, -, hbound⟩ := wellFormed_iff.1 hc
  cases p with
  | idle => simp [phaseCycles, phaseUs, Config.cycles]
  | _ => exact hbound _ (by simp [phaseUs])

/-- With the invariant the counter fits its width. -/
theorem Inv.cnt_lt {s : State} (h : Inv s) : s.cnt < 2 ^ s.cfg.cntW := by
  have hload := phaseCycles_le h.config s.phase
  have hcounter := h.counter
  have hwidth : 0 < 2 ^ s.cfg.cntW := Nat.two_pow_pos _
  omega

/-- `bitidx` after the FSM's part of the edge: it moves on at the end of REC in the first seven slots of a byte
command. -/
theorem fsmEdge_bitidx {s u : State} (hu : fsmEdge s = some u) :
    u.bitidx.toNat =
      if s.phase = .recov ∧ s.cnt = 0 ∧ (s.op = 4#3 ∨ s.op = 5#3) ∧ s.bitidx.toNat < 7 then s.bitidx.toNat + 1
      else s.bitidx.toNat := by
  obtain ⟨hi, rfl⟩ | ⟨-, hc, rfl⟩ | ⟨-, hc, p, hp, rfl⟩ := fsmEdge_cases hu
  · simp [hi]
  · simp [Nat.ne_of_gt hc]
  · by_cases hq : s.phase = .recov
    · rw [hq, nextPhase_recov] at hp
      obtain rfl := Option.some.inj hp
      by_cases hmore : (s.op = 4#3 ∨ s.op = 5#3) ∧ s.bitidx.toNat < 7
      · simp only [State.enter_bitidx, State.shiftSync_exitAction_bitidx, hq, hc, hmore, and_self, if_true,
          toNat_bitidx_succ hmore.2]
      · simp only [State.enter_bitidx, State.shiftSync_exitAction_bitidx, hmore, if_false, and_false, reduceCtorEq]
    · simp [hq]

/-- Settles O46: the bound is the invariant's, before and after; the moves are those of R70 and R71. -/
theorem countersNeverWrap : Obligations.CountersNeverWrap := by
  intro s t h hs
  refine ⟨h.cnt_lt, (step_inv h hs).cnt_lt, fun hb hr _ hc => ?_, ?_⟩
  · obtain ⟨-, hcnt, -⟩ := step_within_phase hs hr hb hc
    omega
  · cases hr : s.rstNow with
    | true => simp [step_with_reset hs hr]
    | false =>
      obtain ⟨u, hu, -, rfl⟩ := step_without_reset hs hr
      obtain ⟨-, hbit, -⟩ := accessEffect_loads s u
      rw [State.endCycle_bitidx, hbit, ← fsmEdge_bitidx hu]
      cases acceptsNow s <;> simp

end Sys2Proof
end

section
/-! PROOFS of the statements on isolation: neither the host (20_memory.md R56, 40_bus_driver.md R89) nor the line
(40_bus_driver.md R142) can be told from the course of a command in progress. -/

namespace Sys2Proof

open Sys2Proof.Machine

/-! The pacing (R142). -/

/-- Equal pacing, part by part. -/
theorem pacing_eq_iff {a b : State} :
    pacing a = pacing b ↔ a.cfg = b.cfg ∧ a.phase = b.phase ∧ a.cnt = b.cnt ∧ a.op = b.op ∧ a.bitidx = b.bitidx ∧
      a.txbuf = b.txbuf := by
  simp [pacing]

/-- The FSM's part of an edge makes equal pacing of equal pacing: no sampled level enters into it. -/
theorem fsmEdge_pacing {a b u v : State} (hpace : pacing a = pacing b) (hu : fsmEdge a = some u)
    (hv : fsmEdge b = some v) : pacing u = pacing v := by
  obtain ⟨hcfg, hphase, hcnt, hop, hbit, htx⟩ := pacing_eq_iff.1 hpace
  rw [pacing_eq_iff]
  by_cases hi : a.phase = .idle
  · obtain rfl := Option.some.inj ((fsmEdge_idle hi).symm.trans hu)
    obtain rfl := Option.some.inj ((fsmEdge_idle (hphase ▸ hi)).symm.trans hv)
    exact ⟨hcfg, hphase, hcnt, hop, hbit, htx⟩
  have hib : b.phase ≠ .idle := hphase ▸ hi
  by_cases hc : 0 < a.cnt
  · obtain rfl := Option.some.inj ((fsmEdge_count hi hc).symm.trans hu)
    obtain rfl := Option.some.inj ((fsmEdge_count hib (hcnt ▸ hc)).symm.trans hv)
    simp [hcfg, hphase, hcnt, hop, hbit, htx]
  · obtain ⟨-, hpos, -⟩ | ⟨-, -, p, hp, rfl⟩ := (fsmEdge_cases hu).resolve_left fun h => hi h.1
    · exact absurd hpos hc
    have hpb : nextPhase b.op b.bitidx b.phase = some p := by rw [← hop, ← hbit, ← hphase, hp]
    obtain rfl := Option.some.inj ((fsmEdge_exit hib (by omega) hpb).symm.trans hv)
    simp [hcfg, hphase, hop, hbit, htx]

/-- While a command is in progress no access touches the pacing (R56). -/
theorem step_pacing {s t : State} (h : step s = .next t) (hr : s.rstNow = false) (hb : s.phase ≠ .idle) :
    ∃ u, fsmEdge s = some u ∧ pacing t = pacing u := by
  obtain ⟨u, hu, -, rfl⟩ := step_without_reset h hr
  obtain ⟨hcfg, -⟩ := accessEffect_frame (port s) s u
  obtain ⟨hphase, hcnt, hop, htx, -, hbit, -⟩ := accessEffect_busy (port s) u hb
  exact ⟨u, hu, pacing_eq_iff.2 ⟨hcfg, hphase, hcnt, hop, hbit, htx⟩⟩

/-- Equal pacing stays equal through an edge of a command in progress. -/
theorem step_pacing_eq {a b a' b' : State} (hpace : pacing a = pacing b) (hb : a.phase ≠ .idle) (hra : a.rstNow = false)
    (hrb : b.rstNow = false) (ha' : step a = .next a') (hb' : step b = .next b') : pacing a' = pacing b' := by
  obtain ⟨-, hphase, -⟩ := pacing_eq_iff.1 hpace
  obtain ⟨u, hu, hpu⟩ := step_pacing ha' hra hb
  obtain ⟨v, hv, hpv⟩ := step_pacing hb' hrb (hphase ▸ hb)
  rw [hpu, hpv, fsmEdge_pacing hpace hu hv]

/-- The waveform is a function of the pacing (R34). -/
theorem owOe_eq_of_pacing {a b : State} (hpace : pacing a = pacing b) (hra : a.rstNow = false)
    (hrb : b.rstNow = false) : a.owOe = b.owOe := by
  obtain ⟨-, hphase, -, -, hbit, htx⟩ := pacing_eq_iff.1 hpace
  simp only [State.owOe, hra, hrb, State.drives, State.txBit, hphase, hbit, htx]

/-- Settles O57: `step_pacing_eq`, and the waveform. -/
theorem lineCannotChangeThePacing : Obligations.LineCannotChangeThePacing :=
  fun _ _ _ _ hpace hb hra hrb ha' hb' =>
    ⟨step_pacing_eq hpace hb hra hrb ha' hb', owOe_eq_of_pacing hpace hra hrb⟩

/-! The whole command (R56). -/

/-- Equal views, part by part. -/
theorem commandView_eq_iff {a b : State} :
    commandView a = commandView b ↔ pacing a = pacing b ∧ a.rxbuf = b.rxbuf ∧ a.presS = b.presS ∧ a.sync = b.sync ∧
      a.present = b.present ∧ a.rxdata = b.rxdata ∧ a.done = b.done := by
  simp [commandView]

/-- Whether an edge completes a command is a function of the pacing (R73). -/
theorem completionEdge_eq_of_pacing {a b : State} (hpace : pacing a = pacing b) :
    a.completionEdge = b.completionEdge := by
  obtain ⟨-, hphase, hcnt, hop, hbit, -⟩ := pacing_eq_iff.1 hpace
  simp only [State.completionEdge, hphase, hcnt, hop, hbit]

/-- The line's level is the same where the drive and the environment are (R18). -/
theorem owI_eq {a b : State} (hoe : a.owOe = b.owOe) (hline : a.line = b.line) (hcycle : a.cycle = b.cycle) :
    a.owI = b.owI := by
  simp only [State.owI, State.padNow, hoe, hline, hcycle]

/-- What an edge of a command in progress makes of the sampled levels and the results, whatever the host does (R24, R28,
R38, R76, R84). -/
theorem step_results {s t : State} (h : step s = .next t) (hr : s.rstNow = false) (hb : s.phase ≠ .idle) :
    t.rxbuf = (if s.phase = .rwait ∧ s.cnt = 0 then placeBit s.rxbuf s.bitidx s.lineSync else s.rxbuf) ∧
    t.presS = (if s.phase = .rstWait ∧ s.cnt = 0 then !s.lineSync else s.presS) ∧
    t.sync = (s.owI :: s.sync).dropLast ∧
    t.present = (if s.completionEdge && isResetOp s.op then s.presS else s.present) ∧
    t.rxdata = (if s.completionEdge && isReadOp s.op then s.rxbuf else s.rxdata) := by
  refine ⟨?_, ?_, step_sync h hr, ?_, ?_⟩
  · simp [step_rxbuf h hr, acceptsNow_of_busy hb]
  · simp [step_presS h, hr]
  · simp [step_present h, hr]
  · simp [step_rxdata h, hr]

/-- DONE stays low until the command completes, whatever the host does (R23, R90). -/
theorem step_done_of_busy {s t : State} (h : step s = .next t) (hr : s.rstNow = false) (hb : s.phase ≠ .idle)
    (hd : s.done = false) : t.done = s.completionEdge := by
  simp [step_done h, hr, acceptsNow_of_busy hb, hd]

/-- Settles O56: the next value of each part of the view is a function of the view, the line and the cycle. -/
theorem hostCannotDisturbACommand : Obligations.HostCannotDisturbACommand := by
  intro a b a' b' hview hline hcycle hb hd hra hrb ha' hb'
  obtain ⟨hpace, hrx, hpres, hsync, hpresent, hrxdata, hdone⟩ := commandView_eq_iff.1 hview
  obtain ⟨-, hphase, hcnt, hop, hbit, -⟩ := pacing_eq_iff.1 hpace
  have hbb : b.phase ≠ .idle := hphase ▸ hb
  have hoe : a.owOe = b.owOe := owOe_eq_of_pacing hpace hra hrb
  have hin : a.owI = b.owI := owI_eq hoe hline hcycle
  have hsample : a.lineSync = b.lineSync := by simp only [State.lineSync, hsync, hin]
  have hend : a.completionEdge = b.completionEdge := completionEdge_eq_of_pacing hpace
  obtain ⟨-, -, hla, hca, -⟩ := step_environment ha'
  obtain ⟨-, -, hlb, hcb, -⟩ := step_environment hb'
  refine ⟨commandView_eq_iff.2 ⟨step_pacing_eq hpace hb hra hrb ha' hb', ?_⟩, by rw [hla, hlb, hline],
    by rw [hca, hcb, hcycle], hoe⟩
  obtain ⟨ha1, ha2, ha3, ha4, ha5⟩ := step_results ha' hra hb
  obtain ⟨hb1, hb2, hb3, hb4, hb5⟩ := step_results hb' hrb hbb
  refine ⟨?_, ?_, ?_, ?_, ?_, ?_⟩
  · rw [ha1, hb1, hphase, hcnt, hrx, hbit, hsample]
  · rw [ha2, hb2, hphase, hcnt, hsample, hpres]
  · rw [ha3, hb3, hin, hsync]
  · rw [ha4, hb4, hend, hop, hpres, hpresent]
  · rw [ha5, hb5, hend, hop, hrx, hrxdata]
  · rw [step_done_of_busy ha' hra hb hd, step_done_of_busy hb' hrb hbb (hdone ▸ hd), hend]

end Sys2Proof
end

section
/-! PROOFS of the statements of 20_memory.md and 10_state.md on register accesses: reads and ignored writes (R46, R30),
and the writes of STATUS (R21), TXDATA (R27) and CTRL (R29). -/

namespace Sys2Proof

open Sys2Proof.Machine

/-- A step under a move of the host that the port takes, checked as in `step`. -/
theorem step_withAccess {s : State} {x : HostAccess} {bus : Bus} (hb : busOf s.cfg x = .ok bus) :
    step (s.withAccess x) =
      if s.cfg.wellFormed = false then .refused .badConfig
      else if s.launched = false then .refused .beforeReset
      else thenEndCycle (onEdge (s.withAccess x) (accessEffect bus s)) := by
  have hrst : (s.withAccess x).rstNow = false := rfl
  have heffect : accessEffect bus (s.withAccess x) = accessEffect bus s := rfl
  simp only [step, State.withAccess_cfg, State.withAccess_launched, State.withAccess_hostNow, hrst, hb, busEdge_eq,
    heffect, Bool.false_eq_true, if_false]

/-- The FSM's part of an edge under a move of the host, from the one without: the end of the cycle drops the move. -/
theorem fsmEdge_withAccess_of_noAccess {s v : State} (x : HostAccess) (hv : fsmEdge (s.withAccess .noAccess) = some v) :
    ∃ w, fsmEdge (s.withAccess x) = some w ∧ w.endCycle = v.endCycle := by
  have hmap := fsmEdge_withAccess (s.withAccess .noAccess) x rfl
  have hhost : v.host = (s.withAccess .noAccess).host := by simp [fsmEdge_frame hv]
  rw [hv] at hmap
  refine ⟨_, hmap, ?_⟩
  simp [State.endCycle, hhost]

/-- The FSM's part of an edge stops under one move of the host exactly if it stops under another. -/
theorem fsmEdge_withAccess_none {s : State} (x : HostAccess) (hv : fsmEdge (s.withAccess .noAccess) = none) :
    fsmEdge (s.withAccess x) = none := by
  have hmap := fsmEdge_withAccess (s.withAccess .noAccess) x rfl
  rwa [hv] at hmap

/-- A move that acts on nothing gives the step of a cycle without one, whether or not that step has a next state. -/
theorem step_withAccess_quiet {s : State} {x : HostAccess} {bus : Bus} (hb : busOf s.cfg x = .ok bus)
    (hq : accessEffect bus s = id) : step (s.withAccess x) = step (s.withAccess .noAccess) := by
  have hnone : accessEffect noBus s = id := rfl
  rw [step_withAccess hb, step_withAccess (busOf_noAccess s.cfg), hq, hnone]
  cases hv : fsmEdge (s.withAccess .noAccess) with
  | none => simp only [onEdge, hv, fsmEdge_withAccess_none x hv]
  | some v =>
    obtain ⟨w, hw, hend⟩ := fsmEdge_withAccess_of_noAccess x hv
    simp only [onEdge_of_fsmEdge _ hv, onEdge_of_fsmEdge _ hw, thenEndCycle, id, hend]

/-- A read acts on nothing, and neither does a write of an address without a writable register. -/
theorem accessEffect_quiet {bus : Bus} (s : State)
    (h : bus.we = false ∨ bus.addr = 3#3 ∨ bus.addr = 5#3 ∨ bus.addr = 6#3 ∨ bus.addr = 7#3) :
    accessEffect bus s = id := by
  funext t
  rcases h with h | h | h | h | h <;> simp [accessEffect, Bus.writesCmd, h]

/-- Settles O34: `step_withAccess_quiet` for the accesses of `accessEffect_quiet`. -/
theorem readsAndIgnoredWritesHaveNoEffect : Obligations.ReadsAndIgnoredWritesHaveNoEffect :=
  fun s a v => ⟨step_withAccess_quiet (busOf_memRead s.cfg a) (accessEffect_quiet s (.inl rfl)),
    fun ha => step_withAccess_quiet (busOf_memWrite s.cfg a v) (accessEffect_quiet s (.inr ha))⟩

/-- A step under a move of the host, from the one of the same cycle without: `w` is the FSM's part, `w.endCycle` the
next state without the move. -/
theorem step_withAccess_of_next {s u : State} {x : HostAccess} {bus : Bus} (hr : Ready s) (hb : busOf s.cfg x = .ok bus)
    (hu : step (s.withAccess .noAccess) = .next u) :
    ∃ w, u = w.endCycle ∧ step (s.withAccess x) = .next (accessEffect bus s w).endCycle := by
  obtain ⟨v, hv, rfl⟩ := step_withAccess_noAccess (s := s.withAccess .noAccess) rfl hu
  obtain ⟨w, hw, hend⟩ := fsmEdge_withAccess_of_noAccess x hv
  obtain ⟨hc, hl⟩ := hr
  refine ⟨w, hend.symm, ?_⟩
  rw [step_withAccess hb, hc, hl, onEdge_of_fsmEdge _ hw]
  rfl

/-- Settles O35: a STATUS write is `State.acknowledge`, on top of the cycle without an access. -/
theorem statusWriteClearsByOnes : Obligations.StatusWriteClearsByOnes := by
  intro s v u hr hu
  obtain ⟨w, rfl, hw⟩ := step_withAccess_of_next hr (busOf_memWrite s.cfg 1#3 v) hu
  refine hw.trans (congrArg _ ?_)
  have hack : accessEffect { sel := true, we := true, addr := 1#3, wdata := v } s w =
      w.acknowledge s.completionEdge v := rfl
  rw [hack]
  unfold State.acknowledge
  cases v.getLsbD 1 <;> cases v.getLsbD 3 <;> cases s.completionEdge <;> rfl

/-- Settles O36: each write is one register's, on top of the cycle without an access. -/
theorem txdataAndCtrlWritesTouchTheirRegisterOnly : Obligations.TxdataAndCtrlWritesTouchTheirRegisterOnly := by
  intro s v u hr hu
  refine ⟨?_, ?_⟩
  · obtain ⟨w, rfl, hw⟩ := step_withAccess_of_next hr (busOf_memWrite s.cfg 2#3 v) hu
    exact hw
  · obtain ⟨w, rfl, hw⟩ := step_withAccess_of_next hr (busOf_memWrite s.cfg 4#3 v) hu
    exact hw

end Sys2Proof
end

section
/-! PROOFS of the statements of 70_reset_and_hazards.md, 60_exceptions.md and 00_scope.md on reset (R123, R129), the
interrupt (R113), the refusals (R8, R44, R125) and the default configuration (R7). -/

namespace Sys2Proof

open Sys2Proof.Machine

/-! Reset. -/

/-- Settles O38: the reset edge, field by field. -/
theorem resetEdgeForcesTheResetState : Obligations.ResetEdgeForcesTheResetState := by
  intro s hc hr
  refine ⟨by simp [State.owOe, hr], _, step_of_reset hc hr, ?_⟩
  simp [drives_of_idle (s := s.resetEdge.endCycle) rfl]

/-- The interrupt output by its three flags (R113). -/
theorem irq_iff (s : State) : s.irq = true ↔ s.irqEn = true ∧ (s.done = true ∨ s.cmderr = true) := by
  simp [State.irq]

/-- IRQ_EN is 0 after a reset edge, and so is the interrupt. -/
theorem irq_of_reset {s t : State} (hr : s.rstNow = true) (h : step s = .next t) : t.irq = false := by
  simp [State.irq, step_with_reset h hr]

/-- Settles O37: `irq_iff` and `irq_of_reset`. -/
theorem interruptIsEnabledDoneOrError : Obligations.InterruptIsEnabledDoneOrError :=
  ⟨irq_iff, fun _ _ => irq_of_reset⟩

/-- The STATUS byte with every flag at its reset value: LINE alone. -/
theorem statusByte_of_reset {t : State} (herr : t.errcode = 0#2) (hcm : t.cmderr = false) (hpr : t.present = false)
    (hd : t.done = false) (hi : t.phase = .idle) : t.statusByte = if t.lineSync then 0x40#8 else 0x00#8 := by
  have hbusy : t.busy = false := by simp [State.busy, hi]
  rw [State.statusByte, herr, hcm, hpr, hd, hbusy]
  cases t.lineSync <;> rfl

/-- The synchronizer shows high after a reset edge where it has a stage. -/
theorem lineSync_of_replicate {t : State} {n : Nat} (ht : t.sync = List.replicate n true) (hn : 1 ≤ n) :
    t.lineSync = true := by
  obtain ⟨k, rfl⟩ : ∃ k, n = k + 1 := ⟨n - 1, by omega⟩
  have hlast : k < t.sync.length := by simp [ht]
  rw [lineSync_of_last_stage hlast (by simp [ht])]
  simp [ht]

/-- Settles O39: the registers have their reset values, and STATUS shows `line_sync` alone. -/
theorem resetStateReads : Obligations.ResetStateReads := by
  intro s t hr h
  have hirq : t.irq = false := irq_of_reset hr h
  obtain rfl := step_with_reset h hr
  have hstatus := statusByte_of_reset (t := s.resetEdge.endCycle) rfl rfl rfl rfl rfl
  have hsync : s.resetEdge.endCycle.sync = List.replicate s.cfg.syncStages true := rfl
  refine ⟨fun hn => ?_, fun h0 => ?_, rfl, rfl, ?_, hirq, ?_⟩
  · rw [State.regRead_status, hstatus, lineSync_of_replicate hsync hn]
    rfl
  · have hempty : s.resetEdge.endCycle.lineSync = s.resetEdge.endCycle.owI := by
      rw [State.lineSync, hsync, h0]
      rfl
    rw [State.regRead_status, hstatus, hempty]
  · rw [State.regRead_ctrl, State.ctrlByte_eq]
    rfl
  · simp [State.owOe, drives_of_idle (s := s.resetEdge.endCycle) rfl]

/-! Refusals. -/

/-- An edge of the port answers a next state or a fault, and refuses nothing. -/
theorem busEdge_ne_refused (bus : Bus) (s : State) (r : Refusal) : thenEndCycle (busEdge bus s) ≠ .refused r := by
  rw [busEdge_eq, onEdge]
  cases fsmEdge s <;> simp [thenEndCycle]

/-- The port refuses exactly the wide accesses that touch the block (R44). -/
theorem busOf_eq_error_iff {c : Config} {x : HostAccess} {r : Refusal} :
    busOf c x = .error r ↔ r = .wideAccess ∧ ∃ a n, x = .wide a n ∧ a < c.base + 8 ∧ c.base < a + n := by
  refine ⟨busOf_error, ?_⟩
  rintro ⟨rfl, a, n, rfl, hlt, hgt⟩
  simp [busOf, touchesWindow, hlt, hgt]

/-- A step from before the first reset edge (R125). -/
theorem step_of_not_launched {s : State} (hc : s.cfg.wellFormed = true) (hr : s.rstNow = false)
    (hl : s.launched = false) : step s = .refused .beforeReset := by
  simp [step, hc, hr, hl]

/-- The refusals of a step, in the order they are checked in. -/
theorem step_refused_iff (s : State) (r : Refusal) :
    step s = .refused r ↔
      (s.cfg.wellFormed = false ∧ r = .badConfig) ∨
      (s.cfg.wellFormed = true ∧ s.rstNow = false ∧ s.launched = false ∧ r = .beforeReset) ∨
      (s.cfg.wellFormed = true ∧ s.rstNow = false ∧ s.launched = true ∧ r = .wideAccess ∧
        ∃ a n, s.hostNow.access = .wide a n ∧ a < s.cfg.base + 8 ∧ s.cfg.base < a + n) := by
  cases hc : s.cfg.wellFormed with
  | false =>
    rw [step_of_not_wellFormed hc]
    simpa using eq_comm
  | true =>
    cases hr : s.rstNow with
    | true => simp [step_of_reset hc hr]
    | false =>
      cases hl : s.launched with
      | false =>
        rw [step_of_not_launched hc hr hl]
        simpa using eq_comm
      | true =>
        cases hb : busOf s.cfg s.hostNow.access with
        | error q =>
          obtain ⟨rfl, hwide⟩ := busOf_error hb
          have hstep : step s = .refused .wideAccess := by simp [step, hc, hr, hl, hb]
          rw [hstep]
          simpa [hwide] using eq_comm
        | ok bus =>
          have hnone : ¬∃ a n, s.hostNow.access = .wide a n ∧ a < s.cfg.base + 8 ∧ s.cfg.base < a + n := by
            intro hwide
            have herror := busOf_eq_error_iff.2 ⟨rfl, hwide⟩
            simp [hb] at herror
          rw [step_of_busOf ⟨hc, hl⟩ hr hb]
          simp [hnone, busEdge_ne_refused]

/-- Settles O40: `step_refused_iff` for each refusal. -/
theorem refusalsAreTheSpecsOwn : Obligations.RefusalsAreTheSpecsOwn := by
  intro s
  refine ⟨?_, ?_, ?_, fun m => ?_⟩
  · simp [step_refused_iff]
  · simp [step_refused_iff]
  · simp [step_refused_iff]
  · simp [step_refused_iff]

/-! The default configuration (R7). -/

/-- `leastWidth m` is the least width that counts `m` (R7). -/
theorem leastWidth_le_iff {m w : Nat} : Config.leastWidth m ≤ w ↔ m ≤ 2 ^ w := by
  unfold Config.leastWidth
  split_ifs with hm
  · exact iff_of_true (Nat.zero_le w) (hm.trans Nat.one_le_two_pow)
  · rw [Nat.succ_le_iff, Nat.log2_lt (by omega), Nat.sub_lt_iff_lt_add (by omega)]
    omega

/-- The longest default phase is 480 µs (R8), whatever the counter's width. -/
theorem wellFormed_standard_iff {n b w : Nat} (hn : 1 ≤ n) :
    { Config.standard n b with cntW := w : Config }.wellFormed = true ↔ 480 * n ≤ 2 ^ w := by
  simp [Config.wellFormed, Config.longestPhase, Config.standard, hn]

/-- Settles O42: `leastWidth_le_iff` at the longest default phase, and R88's sums. -/
theorem defaultParametersAreLegal : Obligations.DefaultParametersAreLegal := by
  intro n b hn
  refine ⟨(wellFormed_standard_iff hn).2 (leastWidth_le_iff.1 le_rfl), fun w hw => ?_, fun h => ?_, ?_, fun _ => ?_, ?_,
    ?_, ?_⟩
  · exact leastWidth_le_iff.2 ((wellFormed_standard_iff hn).1 hw)
  · rw [h, cntW_standard_125]
  · rfl
  · rfl
  · rfl
  · exact (Nat.mul_assoc 8 61 n).symm
  · exact (Nat.mul_assoc 8 61 n).symm

end Sys2Proof
end

section
/-! PROOFS of the statements on whole commands (40_bus_driver.md R69, R73 to R90; 41_byte_framer.md R95 to R98). -/

namespace Sys2Proof

open Sys2Proof.Machine

/-! The samples (R69). -/

/-- As many edges later as the synchronizer has stages, its last stage shows the pad of now. -/
theorem lineSync_after_runs {s t : State} (hu : undisturbed s.sync.length s) (h : runs s.sync.length s = .next t) :
    t.lineSync = s.owI := by
  obtain ⟨-, pre, hsync, hlen, hlast⟩ := sync_after_runs _ s t hu h le_rfl
  rw [Nat.sub_self, List.take_zero, List.append_nil] at hsync
  by_cases h0 : s.sync.length = 0
  · rw [h0, runs_zero] at h
    obtain rfl := Host.Outcome.next.inj h
    rw [State.lineSync, List.eq_nil_of_length_eq_zero h0, List.getLastD_nil]
  · rw [State.lineSync, hsync, List.getLastD_eq_getLast?, hlast (Nat.pos_of_ne_zero h0), Option.getD_some]

/-- Settles O31: `lineSync_after_runs`. -/
theorem sampleSeesThePadSyncStagesEarlier : Obligations.SampleSeesThePadSyncStagesEarlier :=
  fun _ _ hu h => lineSync_after_runs hu h

/-! Until completion (R22 to R24, R28). -/

/-- Settles O48: the command is its duration away from completion, and shows nothing before. -/
theorem busyAndOldResultsUntilCompletion : Obligations.BusyAndOldResultsUntilCompletion := by
  intro i s t n hr hi hu hexec hn
  obtain ⟨t', hexec', hent, hcfg, hop, hbit, hpresent, hrxdata, -⟩ := exec_enters i hr hi hu
  obtain rfl := Host.Outcome.next.inj (hexec.symm.trans hexec')
  obtain ⟨hremaining, hadmits⟩ := remaining_of_entered hent hop hbit
  rw [hcfg] at hremaining
  have hbusy : t.endCycle.phase ≠ .idle := by rw [hent.phase]; exact firstPhase_ne_idle i
  obtain ⟨m, hm, hb, hd, hp, hx, -⟩ :=
    busy_until_completion (hent.running.mono hn.le) hadmits hbusy hent.done (hremaining ▸ hn)
  exact ⟨m, hm, m.busy_eq_true_iff.2 hb, hd, hp.trans hpresent, hx.trans hrxdata⟩

/-! The transaction view (R90). -/

/-- A command that has just entered its first phase in `e` completes in `c` as its transaction says, for the TXDATA `v`
of its CMD write and the levels `samples` at its sample edges. -/
structure TransactionRun (i : Instr) (v : Byte) (e c : State) (samples : List Bool) : Prop where
  run : runs (durationCycles e.cfg i) e = .next c
  sampled : (sampleEdges e.cfg i).map (fun n => sampleAtEdge n e) = samples.map some
  driven : driveTrace (durationCycles e.cfg i) e = expand (transaction e.cfg i v samples).waveform
  idle : c.phase = .idle
  done : c.done = true
  present : c.present = (transaction e.cfg i v samples).present.getD e.present
  rxdata : c.rxdata = (transaction e.cfg i v samples).rxdata.getD e.rxdata

/-- OW_RESET (R75 to R79). -/
theorem reset_transaction {e : State} (v : Byte) (h : Entered .rstLow (durationCycles e.cfg .owReset) e)
    (hop : e.op = 1#3) : ∃ c samples, TransactionRun .owReset v e c samples := by
  obtain ⟨m, c, hm, hc, hidle, hdone, hpresent, hrxdata, htrace⟩ := reset_run h hop
  exact ⟨c, [m.lineSync], hc, congrArg (fun x => [x]) (sampleAtEdge_of_runs hm), htrace, hidle, hdone, hpresent,
    hrxdata⟩

/-- OW_WRITE_BIT (R80 to R82). -/
theorem write_bit_transaction {e : State} (v : Byte) (b : BitVec 1)
    (h : Entered .init (durationCycles e.cfg (.owWriteBit b)) e) (hop : e.op = 2#3) (hbit : e.bitidx = 0#3)
    (htx : e.txbuf = bitOperand b) : ∃ c samples, TransactionRun (.owWriteBit b) v e c samples := by
  obtain ⟨c, hc, hidle, hdone, hpresent, hrxdata, htrace⟩ := write_bit_slot h hop hbit
  have hsent : e.txbuf.getLsbD 0 = b.getLsbD 0 := by rw [htx, bitOperand, BitVec.getLsbD_setWidth]; rfl
  rw [hsent] at htrace
  exact ⟨c, [], hc, rfl, htrace, hidle, hdone, hpresent, hrxdata⟩

/-- OW_READ_BIT (R83 to R87). -/
theorem read_bit_transaction {e : State} (v : Byte) (h : Entered .init (durationCycles e.cfg .owReadBit) e)
    (hop : e.op = 3#3) (hbit : e.bitidx = 0#3) (hrx : e.rxbuf = 0x00#8) :
    ∃ c samples, TransactionRun .owReadBit v e c samples := by
  obtain ⟨m, c, hm, hc, hidle, hdone, hpresent, hrxdata, htrace⟩ := read_bit_slot h hop hbit
  have hone : placeBit e.rxbuf 0#3 m.lineSync = BitVec.ofNat 8 (assemble [m.lineSync]) := by
    rw [hrx]
    cases m.lineSync <;> rfl
  exact ⟨c, [m.lineSync], hc, congrArg (fun x => [x]) (sampleAtEdge_of_runs hm), htrace, hidle, hdone, hpresent,
    hrxdata.trans hone⟩

/-- A waveform of several slots, cycle by cycle, is its slots one after the other. -/
theorem expand_flatMap (l : List Nat) (f : Nat → List Segment) :
    expand (l.flatMap f) = l.flatMap fun k => expand (f k) :=
  List.flatMap_assoc

/-- OW_WRITE_BYTE (41_byte_framer.md R92 to R94). -/
theorem write_byte_transaction {e : State} (v : Byte) (h : Entered .init (durationCycles e.cfg .owWriteByte) e)
    (hop : e.op = 4#3) (hbit : e.bitidx = 0#3) (htx : e.txbuf = v) :
    ∃ c samples, TransactionRun .owWriteByte v e c samples := by
  obtain ⟨c, hc, hidle, hdone, hpresent, hrxdata, -, -, htrace⟩ := write_byte_slots (n := 7) h hop (by rw [hbit]; rfl)
  have hslots : expand (waveform e.cfg v .owWriteByte) =
      (List.range' 0 8).flatMap fun k => expand (writeSlot e.cfg (v.getLsbD k)) := by
    rw [waveform, expand_flatMap, List.range_eq_range']
  rw [hbit, htx] at htrace
  exact ⟨c, [], hc, rfl, htrace.trans hslots.symm, hidle, hdone, hpresent, hrxdata⟩

/-- A byte is assembled from its bits (41_byte_framer.md R96). -/
theorem ofNat_assemble_bits (v : Byte) : BitVec.ofNat 8 (assemble ((List.range 8).map fun k => v.getLsbD k)) = v := by
  refine BitVec.eq_of_getLsbD_eq fun k hk => ?_
  rw [BitVec.getLsbD_ofNat, testBit_assemble]
  simp [hk]

/-- OW_READ_BYTE (41_byte_framer.md R95 to R97), with its samples named by the bits they become. -/
theorem read_byte_transaction {e : State} (v : Byte) (h : Entered .init (durationCycles e.cfg .owReadByte) e)
    (hop : e.op = 5#3) (hbit : e.bitidx = 0#3) :
    ∃ c, TransactionRun .owReadByte v e c ((List.range 8).map fun k => c.rxdata.getLsbD k) := by
  obtain ⟨c, hc, hidle, hdone, hpresent, -, hsamples, htrace⟩ := read_byte_slots (n := 7) h hop (by rw [hbit]; rfl)
  have hslots : expand (waveform e.cfg v .owReadByte) = (List.replicate 8 (expand (readSlot e.cfg))).flatten := by
    rw [waveform, expand_flatMap]
    rfl
  refine ⟨c, hc, ?_, htrace.trans hslots.symm, hidle, hdone, hpresent, (ofNat_assemble_bits c.rxdata).symm⟩
  rw [sampleEdges, List.map_map, List.map_map]
  refine List.map_congr_left fun k hk => ?_
  obtain ⟨m, hm, hbitk⟩ := hsamples k (List.mem_range.1 hk)
  rw [hbit] at hbitk
  simp [sampleAtEdge_of_runs hm, ← hbitk]

/-- Every command issued in IDLE is accepted and runs as its transaction says. -/
theorem command_transaction {i : Instr} {s : State} (hr : Ready s) (hi : s.phase = .idle)
    (hu : undisturbed (durationCycles s.cfg i) s.endCycle) :
    ∃ t c samples, exec i s = .next t ∧ t.endCycle.cfg = s.cfg ∧ t.endCycle.present = s.present ∧
      t.endCycle.rxdata = s.rxdata ∧ TransactionRun i s.txdata t.endCycle c samples := by
  obtain ⟨t, hexec, hent, hcfg, hop, hbit, hpresent, hrxdata, -, htx, hrx⟩ := exec_enters i hr hi hu
  rw [← hcfg] at hent
  have hrun : ∃ c samples, TransactionRun i s.txdata t.endCycle c samples := by
    cases i with
    | owReset => exact reset_transaction _ hent hop
    | owWriteBit b => exact write_bit_transaction _ b hent hop hbit htx
    | owReadBit => exact read_bit_transaction _ hent hop hbit hrx
    | owWriteByte => exact write_byte_transaction _ hent hop hbit htx
    | owReadByte =>
      obtain ⟨c, hc⟩ := read_byte_transaction s.txdata hent hop hbit
      exact ⟨c, _, hc⟩
  obtain ⟨c, samples, hc⟩ := hrun
  exact ⟨t, c, samples, hexec, hcfg, hpresent, hrxdata, hc⟩

/-- Settles O47: `command_transaction`, in terms of the state the command was issued in. -/
theorem transactionRefinesTheClockEdges : Obligations.TransactionRefinesTheClockEdges := by
  intro i s hr hi hu
  obtain ⟨t, c, samples, hexec, hcfg, hpresent, hrxdata, hc⟩ := command_transaction hr hi hu
  rw [← hcfg, ← hpresent, ← hrxdata]
  exact ⟨t, c, samples, hexec, hc.run, hc.sampled, hc.driven, hc.idle, hc.done, hc.present, hc.rxdata⟩

/-- Settles O55: acceptance and every later edge of a silent host keep the registers that the host writes. -/
theorem commandLeavesOtherRegistersAlone : Obligations.CommandLeavesOtherRegistersAlone := by
  intro i s hr hi hs
  obtain ⟨t, c, samples, hexec, hcfg, -, -, hc⟩ := command_transaction hr hi (undisturbed_of_silent hs)
  have hrun := hc.run
  rw [hcfg] at hrun
  obtain rfl := Host.Outcome.next.inj ((exec_of_idle i hi).symm.trans hexec)
  obtain ⟨htxdata, hirq, hcmderr, herrcode, hop⟩ := silent_run _ _ c (by simpa [silent] using hs) hrun
  refine ⟨_, c, hexec, hrun, ?_⟩
  simp [htxdata, hirq, hcmderr, herrcode, hop]

/-! Single results. -/

/-- Settles O49: the sample of `reset_run`, traced back through the synchronizer by `lineSync_after_runs`. -/
theorem owResetCommitsThePresenceSample : Obligations.OwResetCommitsThePresenceSample := by
  intro s hr hi hu
  obtain ⟨t, hexec, hent, hcfg, hop, -, -, hrxdata, hlen, -⟩ := exec_enters .owReset hr hi hu
  rw [← hcfg] at hent ⊢
  obtain ⟨m, c, hm, hc, hidle, hdone, hpres, hrx, -⟩ := reset_run hent hop
  refine ⟨t, c, m.lineSync, hexec, hc, sampleAtEdge_of_runs hm, hpres, hrx.trans hrxdata, hidle, hdone,
    fun n p hn hp => ?_⟩
  have hlast : n + s.sync.length = t.endCycle.cfg.cycles (t.endCycle.cfg.tRstl + t.endCycle.cfg.tMsp) - 1 := by omega
  have hshort : n + s.sync.length ≤ durationCycles t.endCycle.cfg .owReset := by
    simp only [durationCycles, ← cycles_add] at hn ⊢
    omega
  obtain ⟨hup, -, hlenp, -⟩ := undisturbed_after_runs n s.sync.length _ p (undisturbed_mono hent.running.host hshort) hp
  rw [hlen] at hlenp
  rw [← hlast, runs_add hp, ← hlenp] at hm
  rw [← hlenp] at hup
  rw [hpres, lineSync_after_runs hup hm]

/-- Settles O51: the samples of `read_byte_transaction`, slot by slot. -/
theorem owReadByteCommitsTheSampledBits : Obligations.OwReadByteCommitsTheSampledBits := by
  intro s hr hi hu
  obtain ⟨t, hexec, hent, hcfg, hop, hbit, hpresent, -⟩ := exec_enters .owReadByte hr hi hu
  rw [← hcfg] at hent ⊢
  obtain ⟨c, hc⟩ := read_byte_transaction s.txdata hent hop hbit
  refine ⟨t, c, hexec, hc.run, fun k hk => ?_, hc.present.trans hpresent, hc.idle, hc.done⟩
  have hk' := congrArg (·[k]?) hc.sampled
  simpa [sampleEdges, hk] using hk'

/-! Loopback (41_byte_framer.md R98). -/

/-- Less of an undisturbed stretch is undisturbed too. -/
theorem Entered.mono {p : Phase} {m n : Nat} {s : State} (h : Entered p n s) (hm : m ≤ n) : Entered p m s :=
  { h with running := h.running.mono hm }

/-- The level of a write slot right after its initiation pulse is the bit's (R81). -/
theorem writeSlot_level {c : Config} (hc : c.wellFormed = true) (b : Bool) :
    (expand (writeSlot c b))[c.cycles c.tInit]? = some (!b) := by
  have hbody : 0 < c.cycles (c.tSlot - c.tInit) := phaseCycles_pos (p := .wbody) hc (by decide)
  rw [expand_writeSlot c b hc, List.append_assoc, List.getElem?_append_right (by simp),
    List.getElem?_append_left (by simpa)]
  simp [hbody]

/-- The level of slot `k` of OW_WRITE_BYTE right after its initiation pulse is that of bit `k`. -/
theorem writeByte_level {c : Config} (hc : c.wellFormed = true) (v : Byte) {k : Nat} (hk : k < 8) :
    ((List.range' 0 8).flatMap fun j => expand (writeSlot c (v.getLsbD j)))[k * writeSlotCycles c + c.cycles c.tInit]? =
      some (!v.getLsbD k) := by
  have hslot := take_drop_flatMap_range' (f := fun j => expand (writeSlot c (v.getLsbD j)))
    (fun _ => length_expand_writeSlot hc _) hk 0
  have hin : c.cycles c.tInit < writeSlotCycles c := by
    have hbody := phaseCycles_pos (p := .wbody) hc (by decide)
    rw [writeSlotCycles_eq hc]
    simp only [phaseCycles, phaseUs] at hbody ⊢
    omega
  rw [Nat.zero_add] at hslot
  rw [← List.getElem?_drop, ← List.getElem?_take_of_lt hin, hslot, writeSlot_level hc]

/-- Settles O54: bit `k` read is the sample of read slot `k`, which the loopback makes the level of write slot `k`. -/
theorem loopbackReturnsTheByte : Obligations.LoopbackReturnsTheByte := by
  intro s hr hi hu
  have hwf := hr.1
  obtain ⟨t, hexec, hent, hcfg, hop, hbit, -, -, -, htx, -⟩ := exec_enters .owWriteByte hr hi hu
  replace htx : t.endCycle.txbuf = s.txdata := htx
  have hwrite : Entered .init ((7 + 1) * writeSlotCycles t.endCycle.cfg) t.endCycle :=
    hent.mono (by simp only [hcfg, durationCycles]; omega)
  obtain ⟨c, hc, hidle, -, -, -, hcc, hlaunched, htrace⟩ := write_byte_slots hwrite hop (by rw [hbit]; rfl)
  rw [hcfg] at hc htrace hcc
  rw [hbit, htx] at htrace
  obtain ⟨huc, -⟩ := undisturbed_after_runs (8 * writeSlotCycles s.cfg) (durationCycles s.cfg .owReadByte + 1) _ c
    (undisturbed_mono hent.running.host (by simp only [durationCycles]; omega)) hc
  have huc' : undisturbed (durationCycles c.cfg .owReadByte) c.endCycle := by
    rw [hcc]
    exact undisturbed_tail huc rfl rfl
  obtain ⟨t', hexec', hent', hcfg', hop', hbit', -⟩ := exec_enters .owReadByte ⟨hcc ▸ hwf, hlaunched⟩ hidle huc'
  rw [← hcfg'] at hent'
  obtain ⟨c', hc'⟩ := read_byte_transaction s.txdata hent' hop' hbit'
  obtain ⟨hrun', hsampled, -⟩ := hc'
  rw [hcfg', hcc] at hrun' hsampled
  refine ⟨t, c, t', c', hexec, hc, hexec', hrun', fun hloop => BitVec.eq_of_getLsbD_eq fun k hk => ?_⟩
  have hlevel := hloop k hk (!s.txdata.getLsbD k) (by rw [htrace]; exact writeByte_level hwf s.txdata hk)
  have hread := congrArg (·[k]?) hsampled
  simp only [sampleEdges] at hread
  simpa [hk, hlevel] using hread.symm

end Sys2Proof
end

section
/-! PROOFS of the statements of 45_host_sequences.md: WAIT_IDLE (R100), the decode of step 9 (R102, R106) and the
start-up check (R104). -/

namespace Sys2Proof

open Sys2Proof.Machine

/-! One line of a host program. -/

/-- `system_step`, with what it keeps of the controller. -/
theorem system_step_keeps {y : System} (hr : Ready y.ctl) (hi : Inv y.ctl) :
    ∃ t, step (y.ctl.withAccess y.access) = .next t ∧ Ready t ∧ Inv t ∧
      y.step = some { y.hostAfter (y.ctl.withAccess y.access).busRdata with ctl := t } := by
  obtain ⟨t, ht, hy⟩ := system_step hr hi
  have hmoved : Inv (y.ctl.withAccess y.access) := hi.congr rfl rfl rfl rfl rfl rfl rfl rfl id hi.error hi.errorCode
  have hinv : Inv t := step_inv hmoved ht
  obtain ⟨-, -, -, -, hlaunched⟩ := step_environment ht
  exact ⟨t, ht, ⟨hinv.config, hlaunched⟩, hinv, hy⟩

/-! WAIT_IDLE (R100). -/

/-- WAIT_IDLE reads STATUS. -/
theorem access_waitIdle {y : System} {p : List HostOp} (hh : y.halted = false) (hp : y.prog = .waitIdle :: p) :
    y.access = .memRead (y.ctl.cfg.base + (1#3).toNat) := by
  simp [System.access, todo_of_running hh, hp]

/-- Bit 0 of a STATUS read is BUSY. -/
theorem busRdata_status_busy (s : State) :
    (s.withAccess (.memRead (s.cfg.base + (1#3).toNat))).busRdata.getLsbD 0 = s.busy := by
  have hb : busOf (s.withAccess (.memRead (s.cfg.base + (1#3).toNat))).cfg
      (s.withAccess (.memRead (s.cfg.base + (1#3).toNat))).hostNow.access = _ := busOf_memRead s.cfg 1#3
  obtain ⟨-, -, -, -, -, hbusy⟩ := (s.withAccess (.memRead (s.cfg.base + (1#3).toNat))).statusByte_flags
  rw [busRdata_of_busOf hb, rdata_of_read rfl rfl, State.regRead_status, hbusy]
  rfl

/-- Settles O59: the read shows BUSY, and a read acts on nothing. -/
theorem waitIdleEndsWhenBusyFalls : Obligations.WaitIdleEndsWhenBusyFalls := by
  intro y p hr hi hh hp
  obtain ⟨t, ht, hy⟩ := system_step hr hi
  rw [access_waitIdle hh hp] at ht hy
  rw [hostAfter_waitIdle hh hp, busRdata_status_busy] at hy
  refine ⟨_, hy, rfl, ?_, ?_⟩
  · simp [State.busy]
  · rw [← ht]
    exact (step_withAccess_quiet (busOf_memRead y.ctl.cfg 1#3) (accessEffect_quiet y.ctl (.inl rfl))).symm

/-! The decode (R102, R106). -/

/-- Two bytes as one unsigned number. -/
theorem toNat_append_bytes (msb lsb : Byte) : (msb ++ lsb).toNat = msb.toNat * 256 + lsb.toNat := by
  have hl : lsb.toNat < 2 ^ 8 := lsb.isLt
  rw [BitVec.toNat_append, ← Nat.shiftLeft_add_eq_or_of_lt hl, Nat.shiftLeft_eq]

/-- `sint16` of the two bytes (R106). -/
theorem rawTemperature_eq (lsb msb : Byte) :
    rawTemperature lsb msb =
      if 128 ≤ msb.toNat then ((msb.toNat * 256 + lsb.toNat : Nat) : Int) - 65536
      else ((msb.toNat * 256 + lsb.toNat : Nat) : Int) := by
  have hl : lsb.toNat < 256 := lsb.isLt
  rw [rawTemperature, BitVec.toInt_eq_toNat_cond, toNat_append_bytes]
  split_ifs <;> omega

/-- Settles O58: `rawTemperature_eq`, its sixteenth, and the host's move for the line `decode`. -/
theorem temperatureDecode : Obligations.TemperatureDecode := by
  intro lsb msb
  refine ⟨rawTemperature_eq lsb msb, div_mul_cancel₀ _ (by norm_num), fun y p before hr hi hh hp hreads => ?_⟩
  obtain ⟨t, -, hy⟩ := system_step hr hi
  have ht : readsTemperature y.reads = some (decodeTemperature lsb msb) :=
    hreads ▸ readsTemperature_append before lsb msb
  rw [hostAfter_decode hh hp, ht] at hy
  exact ⟨_, hy, rfl, rfl, rfl, rfl, rfl, hh⟩

/-! The start-up check (R104). -/

/-- A halted host never moves again, while the controller goes on. -/
theorem halted_run (n : Nat) {y : System} (hr : Ready y.ctl) (hi : Inv y.ctl) (hh : y.halted = true) :
    ∃ w, System.run n y = some w ∧ w.halted = true ∧ w.outputs = y.outputs ∧ w.reads = y.reads ∧
      w.temperature = y.temperature := by
  induction n generalizing y with
  | zero => exact ⟨y, rfl, hh, rfl, rfl, rfl⟩
  | succ n ih =>
    obtain ⟨t, -, hrt, hit, hy⟩ := system_step_keeps hr hi
    rw [hostAfter_of_halted hh] at hy
    obtain ⟨w, hw, hkeep⟩ := ih (y := { y with ctl := t }) hrt hit hh
    exact ⟨w, by rw [System.run, hy, Option.bind_some, hw], hkeep⟩

/-- Settles O60: the host's move for the line `haltIfAbsent`, and `halted_run` from there. -/
theorem startupCheckHaltsOnAbsence : Obligations.StartupCheckHaltsOnAbsence := by
  intro y p before status hr hi hh hp hreads
  obtain ⟨t, -, hrt, hit, hy⟩ := system_step_keeps hr hi
  have hp0 : readsPresence y.reads = status.getLsbD 2 := hreads ▸ readsPresence_append before status
  rw [hostAfter_haltIfAbsent hh hp, hp0] at hy
  refine ⟨_, hy, fun hpresent => ?_, fun habsent => ?_⟩
  · simp [hpresent, hh]
  · simp only [habsent, Bool.false_eq_true, if_false, true_and]
    intro n
    obtain ⟨w, hw, hhw, hkeep⟩ := halted_run n
      (y := { y with ctl := t, prog := [], outputs := y.outputs ++ [.noDevice], halted := true }) hrt hit rfl
    exact ⟨w, hw, hhw, hkeep.1, hkeep.2.1, hkeep.2.2, access_of_halted hhw⟩

end Sys2Proof
end
